-- ==== Sys2Proof/Word.lean ====
section
/-! DEFINITION. The word types of the core and the index types of its register files (10_state.md section 1). -/

namespace Sys2Proof

/-- A byte: the width of a general register, a timer and a memory cell (R10, R20, R40). -/
abbrev Byte := BitVec 8

/-- Sixteen bits: the width of `I`, `pc`, a call-stack slot and an instruction word (R12, R13, R18, R60). -/
abbrev Word := BitVec 16

/-- The 12-bit field `nnn` of an instruction word (R61). -/
abbrev Addr12 := BitVec 12

/-- The 4-bit field `n` of an instruction word (R61). -/
abbrev Nibble := BitVec 4

/-- The index of a general register, 0 to 15 (R10: "no register access can be out of range"). -/
abbrev RegIx := Fin 16

/-- The index of `VF`, the register that six instructions write as a flag (R11). -/
abbrev vf : RegIx := 15

/-- The display buffer: 32 rows of 64 one-bit cells, row 0 on top, column 0 at the left (R19). -/
abbrev Display := Vector (Vector Bool 64) 32

/-- Memory as the list of its bytes that are not zero, in the form `Memory.wf` of WellFormed.lean. -/
abbrev Memory := List Host.Cell

/-- `MEM_SIZE`: addresses are 0x000 to 0xFFF (00_scope.md section 4, R40). -/
abbrev memSize : Nat := 4096

/-- `LOAD_ADDR`: where the loader places a program, and the reset value of `pc` (00_scope.md section 4). -/
abbrev loadAddr : Word := 0x200

end Sys2Proof
end

