-- ==== Sys2Proof/Config.lean ====
section
/-! DEFINITION. What is fixed for the machine but not by the spec (FONT_BASE), and the free values: what the host does between two Steps. -/

namespace Sys2Proof

/-- What the host does between one Step and the next: it invokes Tick `ticks` times (R26, R31, R167) and then presents
`keys` (R21) and `rnd` (R22) to the next Step. -/
structure HostMove where
  ticks : Nat
  keys : BitVec 16
  rnd : Byte
deriving DecidableEq, Repr, Inhabited

/-- The host's moves that no script names: FREE VALUES, number 0 before the first Step, number n
before the Step after n others. No body, so nothing can be
proved of them: every number of Ticks, every KEYS and every RND is allowed. Log entries 2 and 3. DESIGN CHOICE, safe. -/
opaque Config.hostMove : Nat → HostMove

/-- `FONT_BASE`, the spec's one open parameter: a number with `FONT_BASE + 80 <= 0x200`, that is, at most 432 (R3, R124,
D20). No body: a claim about it holds for every admissible base. Log entry 1, safe. -/
opaque Config.fontBase : Fin 433

end Sys2Proof
end

