-- ==== Sys2Proof/Syntax.lean ====
section
/-! DEFINITION. The instructions: one constructor per row of the opcode map (30_encoding.md R66), in the map's order. -/

namespace Sys2Proof

/-- The 33 instructions. A word that matches no row is a no-op (R65) and is no instruction of this type: the decoder answers
`none` for it and the Step runs `execNop`. `x` and `y` are register indices, `kk`, `nnn` and `n` immediates (R61, R63). -/
inductive Instr where
  /-- `00EE`, RET (R80) -/
  | ret
  /-- `1nnn`, JP nnn (R81) -/
  | jp (nnn : Addr12)
  /-- `2nnn`, CALL nnn (R82) -/
  | call (nnn : Addr12)
  /-- `3xkk`, SE Vx, kk (R85) -/
  | seImm (x : RegIx) (kk : Byte)
  /-- `4xkk`, SNE Vx, kk (R86) -/
  | sneImm (x : RegIx) (kk : Byte)
  /-- `5xy0`, SE Vx, Vy (R87) -/
  | seReg (x y : RegIx)
  /-- `6xkk`, LD Vx, kk (R90) -/
  | ldImm (x : RegIx) (kk : Byte)
  /-- `7xkk`, ADD Vx, kk (R91) -/
  | addImm (x : RegIx) (kk : Byte)
  /-- `8xy0`, LD Vx, Vy (R95) -/
  | ldReg (x y : RegIx)
  /-- `8xy1`, OR Vx, Vy (R96) -/
  | orReg (x y : RegIx)
  /-- `8xy2`, AND Vx, Vy (R97) -/
  | andReg (x y : RegIx)
  /-- `8xy3`, XOR Vx, Vy (R98) -/
  | xorReg (x y : RegIx)
  /-- `8xy4`, ADD Vx, Vy (R99) -/
  | addReg (x y : RegIx)
  /-- `8xy5`, SUB Vx, Vy (R100) -/
  | sub (x y : RegIx)
  /-- `8xy6`, SHR Vx (R101); the field `y` is decoded and ignored (R68) -/
  | shr (x y : RegIx)
  /-- `8xy7`, SUBN Vx, Vy (R102) -/
  | subn (x y : RegIx)
  /-- `8xyE`, SHL Vx (R103); the field `y` is decoded and ignored (R68) -/
  | shl (x y : RegIx)
  /-- `9xy0`, SNE Vx, Vy (R88) -/
  | sneReg (x y : RegIx)
  /-- `Annn`, LD I, nnn (R92) -/
  | ldI (nnn : Addr12)
  /-- `Bnnn`, JP V0, nnn (R83) -/
  | jpV0 (nnn : Addr12)
  /-- `Cxkk`, RND Vx, kk (R93) -/
  | rnd (x : RegIx) (kk : Byte)
  /-- `Dxyn`, DRW Vx, Vy, n (R110) -/
  | drw (x y : RegIx) (n : Nibble)
  /-- `Ex9E`, SKP Vx (R115) -/
  | skp (x : RegIx)
  /-- `ExA1`, SKNP Vx (R116) -/
  | sknp (x : RegIx)
  /-- `Fx07`, LD Vx, DT (R120) -/
  | ldVxDt (x : RegIx)
  /-- `Fx0A`, LD Vx, K (R117) -/
  | ldVxK (x : RegIx)
  /-- `Fx15`, LD DT, Vx (R121) -/
  | ldDtVx (x : RegIx)
  /-- `Fx18`, LD ST, Vx (R122) -/
  | ldStVx (x : RegIx)
  /-- `Fx1E`, ADD I, Vx (R123) -/
  | addI (x : RegIx)
  /-- `Fx29`, LD F, Vx (R124) -/
  | ldF (x : RegIx)
  /-- `Fx33`, LD B, Vx (R125) -/
  | ldB (x : RegIx)
  /-- `Fx55`, LD [I], Vx (R126) -/
  | storeRegs (x : RegIx)
  /-- `Fx65`, LD Vx, [I] (R127) -/
  | loadRegs (x : RegIx)
deriving DecidableEq, Repr

end Sys2Proof
end

