-- ==== Sys2Proof/WellFormed.lean ====
section
/-! DEFINITION. What is checked of data before it is given a meaning: an instruction, a memory, a Load request. -/

namespace Sys2Proof

/-- Every term of `Instr` is well formed: the bounds of its operands are in their types (R10, R61: decode "never fails",
"index (x, y) always in 0..16"). The one check left is on the fields as numbers: each fits the width the pattern gives it. -/
def Instr.wf : Instr → Bool
  | .ret => true
  | .jp nnn | .call nnn | .ldI nnn | .jpV0 nnn => nnn.toNat < 4096
  | .seImm x kk | .sneImm x kk | .ldImm x kk | .addImm x kk | .rnd x kk => x.val < 16 && kk.toNat < 256
  | .seReg x y | .sneReg x y | .ldReg x y | .orReg x y | .andReg x y | .xorReg x y => x.val < 16 && y.val < 16
  | .addReg x y | .sub x y | .shr x y | .subn x y | .shl x y => x.val < 16 && y.val < 16
  | .drw x y n => x.val < 16 && y.val < 16 && n.toNat < 16
  | .skp x | .sknp x | .ldVxDt x | .ldVxK x | .ldDtVx x | .ldStVx x => x.val < 16
  | .addI x | .ldF x | .ldB x | .storeRegs x | .loadRegs x => x.val < 16

/-- The canonical form from `lo` on: addresses strictly rise from `lo`, none is beyond 0xFFF (R40), and no listed byte is
zero, the value an unlisted address reads as (R30). -/
def Memory.wfFrom (lo : Nat) : Memory → Bool
  | [] => true
  | (a, b) :: rest => lo ≤ a && a < memSize && b != 0 && wfFrom (a + 1) rest

/-- The canonical form of memory: equal memories are equal lists. -/
def Memory.wf (m : Memory) : Bool := wfFrom 0 m

/-- Whether a Load of `len` bytes at `a` may be performed: it requires `a + len <= 4096` (R25). -/
def loadFits (a len : Nat) : Bool := a + len ≤ memSize

end Sys2Proof
end

