-- ==== Sys2Proof/Decode.lean ====
section
/-! DEFINITION. Decoding and encoding (30_encoding.md): the six fields of a word, the dispatch, the encoder, the opcode map's masks. -/

namespace Sys2Proof

/-! ### Byte order (R42, R60) -/

/-- The instruction word of two bytes, the first at the lower address: it is the high byte (R42). -/
def wordOfBytes (hi lo : Byte) : Word := hi ++ lo

/-- The byte of a word that lies at the lower address: bits 15:8 (R42). -/
def Word.hiByte (w : Word) : Byte := w.extractLsb' 8 8

/-- The byte of a word that lies at the higher address: bits 7:0 (R42). -/
def Word.loByte (w : Word) : Byte := w.extractLsb' 0 8

/-! ### The fields (R61): extracted from every word, whatever the word -/

/-- `family = w[15:12]` -/
def Word.family (w : Word) : Nibble := w.extractLsb' 12 4

/-- `x = w[11:8]` -/
def Word.xField (w : Word) : RegIx := (w.extractLsb' 8 4).toFin

/-- `y = w[7:4]` -/
def Word.yField (w : Word) : RegIx := (w.extractLsb' 4 4).toFin

/-- `n = w[3:0]` -/
def Word.nField (w : Word) : Nibble := w.extractLsb' 0 4

/-- `kk = w[7:0]` -/
def Word.kkField (w : Word) : Byte := w.extractLsb' 0 8

/-- `nnn = w[11:0]` -/
def Word.nnnField (w : Word) : Addr12 := w.extractLsb' 0 12

/-! ### Dispatch (R64), one function per second level -/

/-- Family 0x0: `00EE` is RET; every other word is a no-op, `00E0` included (R67, log entry 11). -/
def decodeFamily0 (w : Word) : Option Instr :=
  if w = 0x00EE#16 then some .ret else none

/-- Family 0x8, keyed on the low nibble (R64); 8, 9, A, B, C, D and F are no-ops (R65). -/
def decodeFamily8 (w : Word) : Option Instr :=
  match w.nField with
  | 0x0#4 => some (.ldReg w.xField w.yField)
  | 0x1#4 => some (.orReg w.xField w.yField)
  | 0x2#4 => some (.andReg w.xField w.yField)
  | 0x3#4 => some (.xorReg w.xField w.yField)
  | 0x4#4 => some (.addReg w.xField w.yField)
  | 0x5#4 => some (.sub w.xField w.yField)
  | 0x6#4 => some (.shr w.xField w.yField)
  | 0x7#4 => some (.subn w.xField w.yField)
  | 0xE#4 => some (.shl w.xField w.yField)
  | _ => none

/-- Family 0xE, keyed on the low byte (R64); the rest are no-ops (R65). -/
def decodeFamilyE (w : Word) : Option Instr :=
  match w.kkField with
  | 0x9E#8 => some (.skp w.xField)
  | 0xA1#8 => some (.sknp w.xField)
  | _ => none

/-- Family 0xF, keyed on the low byte (R64, R66); the rest are no-ops (R65). -/
def decodeFamilyF (w : Word) : Option Instr :=
  match w.kkField with
  | 0x07#8 => some (.ldVxDt w.xField)
  | 0x0A#8 => some (.ldVxK w.xField)
  | 0x15#8 => some (.ldDtVx w.xField)
  | 0x18#8 => some (.ldStVx w.xField)
  | 0x1E#8 => some (.addI w.xField)
  | 0x29#8 => some (.ldF w.xField)
  | 0x33#8 => some (.ldB w.xField)
  | 0x55#8 => some (.storeRegs w.xField)
  | 0x65#8 => some (.loadRegs w.xField)
  | _ => none

/-- The instruction a word selects (R64). Total: it answers `none` exactly for the words that match no row of the opcode map,
which are no-ops and no errors (R65). -/
def decodeWord (w : Word) : Option Instr :=
  match w.family with
  | 0x0#4 => decodeFamily0 w
  | 0x1#4 => some (.jp w.nnnField)
  | 0x2#4 => some (.call w.nnnField)
  | 0x3#4 => some (.seImm w.xField w.kkField)
  | 0x4#4 => some (.sneImm w.xField w.kkField)
  | 0x5#4 => if w.nField = 0x0#4 then some (.seReg w.xField w.yField) else none
  | 0x6#4 => some (.ldImm w.xField w.kkField)
  | 0x7#4 => some (.addImm w.xField w.kkField)
  | 0x8#4 => decodeFamily8 w
  | 0x9#4 => if w.nField = 0x0#4 then some (.sneReg w.xField w.yField) else none
  | 0xA#4 => some (.ldI w.nnnField)
  | 0xB#4 => some (.jpV0 w.nnnField)
  | 0xC#4 => some (.rnd w.xField w.kkField)
  | 0xD#4 => some (.drw w.xField w.yField w.nField)
  | 0xE#4 => decodeFamilyE w
  | _ => decodeFamilyF w

/-- Decoding of two bytes in memory order (R42, R60). -/
def decodeBytes (hi lo : Byte) : Option Instr := decodeWord (wordOfBytes hi lo)

/-- The word whose bits the opcode table numbers, as a number `w` of `nbits` bits (bits above are 0). -/
def tableWord (nbits w : Nat) : Word := BitVec.ofNat 16 (w % 2 ^ nbits)

/-- What the decoder reads from the table's bits, laid out in memory high byte first. `none` for a no-op word. -/
def decodeTableWord (nbits w : Nat) : Option Instr :=
  decodeBytes (tableWord nbits w).hiByte (tableWord nbits w).loByte

/-! ### The encoder: the formats of R62 with the fixed digits of R66 -/

/-- Format NNN: `{family, nnn}`. -/
def encNNN (family : Nibble) (nnn : Addr12) : Word := family ++ nnn

/-- Format XKK: `{family, x, kk}`; format XFF is the same with a fixed `kk`. -/
def encXKK (family : Nibble) (x : RegIx) (kk : Byte) : Word := family ++ ((BitVec.ofFin x : Nibble) ++ kk : Addr12)

/-- Format XYN: `{family, x, y, n}`; format XYS is the same with a fixed `n`. -/
def encXYN (family : Nibble) (x y : RegIx) (n : Nibble) : Word :=
  encXKK family x ((BitVec.ofFin y : Nibble) ++ n : Byte)

/-- The word of an instruction (R62, R66). -/
def encode : Instr → Word
  | .ret => 0x00EE#16
  | .jp nnn => encNNN 0x1 nnn
  | .call nnn => encNNN 0x2 nnn
  | .seImm x kk => encXKK 0x3 x kk
  | .sneImm x kk => encXKK 0x4 x kk
  | .seReg x y => encXYN 0x5 x y 0x0
  | .ldImm x kk => encXKK 0x6 x kk
  | .addImm x kk => encXKK 0x7 x kk
  | .ldReg x y => encXYN 0x8 x y 0x0
  | .orReg x y => encXYN 0x8 x y 0x1
  | .andReg x y => encXYN 0x8 x y 0x2
  | .xorReg x y => encXYN 0x8 x y 0x3
  | .addReg x y => encXYN 0x8 x y 0x4
  | .sub x y => encXYN 0x8 x y 0x5
  | .shr x y => encXYN 0x8 x y 0x6
  | .subn x y => encXYN 0x8 x y 0x7
  | .shl x y => encXYN 0x8 x y 0xE
  | .sneReg x y => encXYN 0x9 x y 0x0
  | .ldI nnn => encNNN 0xA nnn
  | .jpV0 nnn => encNNN 0xB nnn
  | .rnd x kk => encXKK 0xC x kk
  | .drw x y n => encXYN 0xD x y n
  | .skp x => encXKK 0xE x 0x9E
  | .sknp x => encXKK 0xE x 0xA1
  | .ldVxDt x => encXKK 0xF x 0x07
  | .ldVxK x => encXKK 0xF x 0x0A
  | .ldDtVx x => encXKK 0xF x 0x15
  | .ldStVx x => encXKK 0xF x 0x18
  | .addI x => encXKK 0xF x 0x1E
  | .ldF x => encXKK 0xF x 0x29
  | .ldB x => encXKK 0xF x 0x33
  | .storeRegs x => encXKK 0xF x 0x55
  | .loadRegs x => encXKK 0xF x 0x65

/-! ### The opcode map as masks (R66): "a word `w` selects the row exactly when `w & mask = match`" -/

/-- The `mask` column of an instruction's row (R66). -/
def Instr.mask : Instr → Word
  | .ret => 0xFFFF
  | .jp _ | .call _ | .ldI _ | .jpV0 _ => 0xF000
  | .seImm .. | .sneImm .. | .ldImm .. | .addImm .. | .rnd .. | .drw .. => 0xF000
  | .seReg .. | .sneReg .. | .ldReg .. | .orReg .. | .andReg .. | .xorReg .. => 0xF00F
  | .addReg .. | .sub .. | .shr .. | .subn .. | .shl .. => 0xF00F
  | .skp _ | .sknp _ | .ldVxDt _ | .ldVxK _ | .ldDtVx _ | .ldStVx _ => 0xF0FF
  | .addI _ | .ldF _ | .ldB _ | .storeRegs _ | .loadRegs _ => 0xF0FF

/-- The `match` column of an instruction's row (R66). -/
def Instr.matchBits : Instr → Word
  | .ret => 0x00EE
  | .jp _ => 0x1000
  | .call _ => 0x2000
  | .seImm .. => 0x3000
  | .sneImm .. => 0x4000
  | .seReg .. => 0x5000
  | .ldImm .. => 0x6000
  | .addImm .. => 0x7000
  | .ldReg .. => 0x8000
  | .orReg .. => 0x8001
  | .andReg .. => 0x8002
  | .xorReg .. => 0x8003
  | .addReg .. => 0x8004
  | .sub .. => 0x8005
  | .shr .. => 0x8006
  | .subn .. => 0x8007
  | .shl .. => 0x800E
  | .sneReg .. => 0x9000
  | .ldI _ => 0xA000
  | .jpV0 _ => 0xB000
  | .rnd .. => 0xC000
  | .drw .. => 0xD000
  | .skp _ => 0xE09E
  | .sknp _ => 0xE0A1
  | .ldVxDt _ => 0xF007
  | .ldVxK _ => 0xF00A
  | .ldDtVx _ => 0xF015
  | .ldStVx _ => 0xF018
  | .addI _ => 0xF01E
  | .ldF _ => 0xF029
  | .ldB _ => 0xF033
  | .storeRegs _ => 0xF055
  | .loadRegs _ => 0xF065

/-- Whether a word matches the row of an instruction (R66). -/
def Instr.selectedBy (i : Instr) (w : Word) : Bool := w &&& i.mask == i.matchBits

end Sys2Proof
end

