-- ==== Sys2Proof/Machine/State.lean ====
section
/-! DEFINITION. The state of the core (10_state.md section 1, R28), the reasons a Step can stop, and the state after Reset (R30). -/

namespace Sys2Proof.Machine

/-- The faults of Step (R132). Every one leaves every cell of the state as it was (R134) and repeats if Step is invoked again
(R135); the model ends the step here, which is safe: `hostOp` gives the state that the host sees afterwards. -/
inductive Fault where
  /-- Code 1. Raised by the fetch when `pc0 > 0xFFE`, and by `Dxyn`, `Fx33`, `Fx55` and `Fx65` when an address of their range
  is above 0xFFF (R132). Safe. -/
  | memoryOutOfBounds
  /-- Code 2. Raised by `2nnn` when sixteen addresses are on the stack (R82, R132). Safe. -/
  | stackOverflow
  /-- Code 3. Raised by `00EE` when no address is on the stack (R80, R132). Safe. -/
  | stackUnderflow
  /-- Code 4. In the spec's list and raised by nothing (R136). Safe. -/
  | unimplementedInstruction
deriving DecidableEq, Repr

/-- The reasons the model gives an instruction no meaning. -/
inductive Refusal where
  /-- An arm of `exec` that has no meaning. No arm is left that answers it. Safe. -/
  | notModelled (mnemonic : String)
deriving DecidableEq, Repr

/-- The result a Step that does not fault gives the host (R130, R131): `StepOutcome` of the source. -/
inductive Report where
  /-- Status 0: the instruction was executed, its writes are committed (R131). -/
  | normal
  /-- Status 1: the instruction is an `Fx0A` and no key was down; nothing changed (R131, R117). -/
  | awaitingKey
deriving DecidableEq, Repr

/-- The model's own record of the host: no state of the hardware (R21, R22, R25, R28). No instruction writes it. -/
structure Env where
  /-- The key lines the coming Step samples: bit k is 1 when logical key k is down (R21). -/
  keys : BitVec 16
  /-- The random byte the coming Step consumes if it executes `Cxkk` (R22). -/
  rnd : Byte
  /-- The host's moves after the coming Steps, first one first; when it is empty the move is a free value (log entry 4). -/
  script : List HostMove
  /-- How many host moves were made: the argument of the next free move (log entry 4). -/
  moves : Nat
  /-- Whether no Step has run since the last Reset: the window in which the host may Load (R25, D25). -/
  loadOpen : Bool
deriving DecidableEq, Repr

/-- The state: the cells of R28's table under the spec's names, then the output of the last Step and the host's record, which
are the model's own. `v`, `stack` and `disp` have the sizes of the spec in their types; `sp` holds 0 to 16 (R18). -/
structure State where
  /-- `MEM`, 4096 bytes (R29, R40) -/
  mem : Memory
  /-- `V[0..15]` (R10); `VF` is `V[15]` (R11) -/
  v : Vector Byte 16
  /-- the address register `I` (R12) -/
  i : Word
  /-- the program counter (R13) -/
  pc : Word
  /-- `STACK[0..15]` (R18) -/
  stack : Vector Word 16
  /-- the number of return addresses on the stack (R18) -/
  sp : Fin 17
  /-- `DISP[0..31][0..63]` (R19) -/
  disp : Display
  /-- the delay timer `DT` (R20) -/
  dt : Byte
  /-- the sound timer `ST` (R20) -/
  st : Byte
  /-- the result of the last Step (R130): an output, log entry 5 -/
  report : Report
  /-- the host's record: the model's own, log entries 2 to 4 -/
  env : Env
deriving DecidableEq, Repr

/-- The outcome of a meaning or a step of this machine. -/
abbrev Result := Host.Outcome State Fault Refusal

/-- The host's record at reset. The inputs of the first Step are free, as those of every later one are (log entry 2): the
host's move number 0 gives them. DESIGN CHOICE (log entry 4): no script, and the next free move is number 1. -/
def Env.reset : Env where
  keys := (Config.hostMove 0).keys
  rnd := (Config.hostMove 0).rnd
  script := []
  moves := 1
  loadOpen := true

/-- Every cell at its reset value (R30): all zero, `pc` at `LOAD_ADDR` (R161). Memory lists nothing: every byte reads 0x00. -/
def State.reset : State where
  mem := []
  v := Vector.replicate 16 0
  i := 0
  pc := loadAddr
  stack := Vector.replicate 16 0
  sp := 0
  disp := Vector.replicate 32 (Vector.replicate 64 false)
  dt := 0
  st := 0
  report := .normal
  env := Env.reset

end Sys2Proof.Machine
end

