-- ==== Sys2Proof/Machine/Ops.lean ====
section
/-! DEFINITION. The operations every meaning is made of: memory, registers, call stack, the advance of `pc`, raising a fault. -/

namespace Sys2Proof.Machine

/-! ### Memory: the list in its canonical form -/

/-- The byte at an address, with no check (`MEM[a]`): a listed byte, else 0x00, the reset value (R30). -/
def memGet : Memory → Nat → Byte
  | [], _ => 0
  | (a, b) :: rest, k => if a = k then b else memGet rest k

/-- `MEM[k] <- v`, with no check, on the sorted list: a zero byte is not listed. -/
def memSet : Memory → Nat → Byte → Memory
  | [], k, v => if v = 0 then [] else [(k, v)]
  | (a, b) :: rest, k, v =>
    if k < a then (if v = 0 then (a, b) :: rest else (k, v) :: (a, b) :: rest)
    else if k = a then (if v = 0 then rest else (k, v) :: rest)
    else (a, b) :: memSet rest k v

/-- The bytes `MEM[a] .. MEM[a + n - 1]`, with no check. -/
def memGetList (m : Memory) (a : Nat) : Nat → List Byte
  | 0 => []
  | n + 1 => memGet m a :: memGetList m (a + 1) n

/-- The writes `MEM[a + k] <- bytes[k]`, first one first, with no check. -/
def memSetList (m : Memory) (a : Nat) : List Byte → Memory
  | [] => m
  | b :: rest => memSetList (memSet m a b) (a + 1) rest

/-- Whether the `n` bytes from `a` on are all addresses: "last address > 0xFFF" is the one check (R43, R44); an empty range is
always in bounds (R114). The address is an unbounded sum, reduced by nothing (R45). -/
def inBounds (a n : Nat) : Bool := n == 0 || a + n - 1 ≤ 0xFFF

/-- `MemRead`: the bytes from `a` on, or MemoryOutOfBounds (R43). -/
def memRead (m : Memory) (a n : Nat) : Except Fault (List Byte) :=
  if inBounds a n then .ok (memGetList m a n) else .error .memoryOutOfBounds

/-- `MemWrite` of a whole range: it is checked before anything is written (R44). -/
def memWrite (m : Memory) (a : Nat) (bytes : List Byte) : Except Fault Memory :=
  if inBounds a bytes.length then .ok (memSetList m a bytes) else .error .memoryOutOfBounds

/-! ### General registers (R10) -/

/-- `V[x]` -/
def State.getV (s : State) (x : RegIx) : Byte := s.v[x.val]

/-- `V[x] <- b` -/
def State.setV (s : State) (x : RegIx) (b : Byte) : State := { s with v := s.v.set x.val b }

/-- `I <- w` -/
def State.setI (s : State) (w : Word) : State := { s with i := w }

/-- `DT <- b` -/
def State.setDt (s : State) (b : Byte) : State := { s with dt := b }

/-- `ST <- b` -/
def State.setSt (s : State) (b : Byte) : State := { s with st := b }

/-- Memory replaced. -/
def State.setMem (s : State) (m : Memory) : State := { s with mem := m }

/-- The display replaced. -/
def State.setDisp (s : State) (d : Display) : State := { s with disp := d }

/-- The display cell `DISP[r][c]`; a pair outside the grid reads as unset. -/
def pixelAt (d : Display) (r c : Nat) : Bool :=
  if h : r < 32 ∧ c < 64 then (d[r]'h.1)[c]'h.2 else false

/-- `V[i] <- MEM[a + i]` for `i = 0 .. x` (R127): the registers above `V[x]` keep their values. -/
def loadBlock (v : Vector Byte 16) (m : Memory) (a : Nat) (x : RegIx) : Vector Byte 16 :=
  Vector.ofFn fun k => if k ≤ x then memGet m (a + k.val) else v[k.val]

/-- `V[0] .. V[x]` in order, `x` included (R126). -/
def State.regBlock (s : State) (x : RegIx) : List Byte := s.v.toList.take (x.val + 1)

/-! ### The end of a Step -/

/-- Raising a fault (R134): the Step is abandoned and the whole state stays as it was when the Step began. There is no
handler, no saved register and no mode (R134, R137, R141), and so nothing returns from a fault (R148). -/
def raise (f : Fault) (_s : State) : Result := .fault f

/-- The Step ends Normal with `pc` at `target` (R13, R131). -/
def State.goto (s : State) (target : Word) : State := { s with pc := target, report := .normal }

/-- `next`: the normal advance, `pc <- (pc0 + 2) mod 65536` (R15). -/
def State.advance (s : State) : State := s.goto (s.pc + 2)

/-- `skip`: the advance of a taken skip, `pc <- (pc0 + 4) mod 65536` (R16). -/
def State.skip (s : State) : State := s.goto (s.pc + 4)

/-- `if c then skip else next` (R16). -/
def State.skipIf (s : State) (c : Bool) : State := if c then s.skip else s.advance

/-- The Step ends AwaitingKey: nothing changes, `pc` stays `pc0` (R117, R131). -/
def State.await (s : State) : State := { s with report := .awaitingKey }

/-- `next; return Normal` -/
def done (s : State) : Result := .next s.advance

/-! ### The call stack (R18) -/

/-- A push, for `SP < 16`: writes `STACK[SP]`, then increments `SP`. `none` when the stack is full. -/
def State.push (s : State) (w : Word) : Option State :=
  if h : s.sp.val < 16 then
    some { s with stack := s.stack.set s.sp.val w, sp := ⟨s.sp.val + 1, by omega⟩ }
  else none

/-- A pop, for `SP > 0`: decrements `SP`, then reads `STACK[SP]`; the slot keeps its value. `none` when the stack is empty. -/
def State.pop (s : State) : Option (Word × State) :=
  if h : s.sp.val = 0 then none
  else some (s.stack[s.sp.val - 1]'(by omega), { s with sp := ⟨s.sp.val - 1, by omega⟩ })

end Sys2Proof.Machine
end

