-- ==== Sys2Proof/Machine/Flags.lean ====
section
/-! DEFINITION. The results and flags of family 0x8 (43_alu.md): exact arithmetic first, narrowed at the end, and the order of the two writes. -/

namespace Sys2Proof.Machine

/-- A flag value: 0 or 1 held in an 8-bit register (R11). -/
def flagByte (c : Bool) : Byte := if c then 1 else 0

/-- A result with the flag that goes with it. -/
structure Flagged where
  result : Byte
  flag : Byte
deriving DecidableEq, Repr

/-- `a + b`: the sum modulo 256, and 1 when it exceeds 255 (R99). -/
def addFlags (a b : Byte) : Flagged :=
  let sum := a.toNat + b.toNat
  { result := BitVec.ofNat 8 (sum % 256), flag := flagByte (sum > 255) }

/-- `a - b`: the difference modulo 256, and 1 ON BORROW, when `b > a` (R100, R102). -/
def subFlags (a b : Byte) : Flagged :=
  { result := BitVec.ofNat 8 ((a.toNat + 256 - b.toNat) % 256), flag := flagByte (b.toNat > a.toNat) }

/-- The logical shift right by one, and the bit shifted out, bit 0 (R101). -/
def shrFlags (a : Byte) : Flagged :=
  { result := BitVec.ofNat 8 (a.toNat / 2), flag := flagByte (a.toNat % 2 = 1) }

/-- The logical shift left by one, and the bit shifted out, bit 7 as 0 or 1 (R103). -/
def shlFlags (a : Byte) : Flagged :=
  { result := BitVec.ofNat 8 (a.toNat * 2 % 256), flag := flagByte (a.toNat ≥ 128) }

/-- The result is written first and the flag second: with `x = 15` the flag stays (R99, R105, D13). -/
def State.writeResultThenFlag (s : State) (x : RegIx) (f : Flagged) : State := (s.setV x f.result).setV vf f.flag

/-- The flag is written first and the result second: with `x = 15` the result stays (R100 to R103, R105, D13). -/
def State.writeFlagThenResult (s : State) (x : RegIx) (f : Flagged) : State := (s.setV vf f.flag).setV x f.result

end Sys2Proof.Machine
end

