-- ==== Sys2Proof/Machine/Alu.lean ====
section
/-! DEFINITION. The 8-bit ALU, family 0x8 (43_alu.md): both operands are read before any write (R203). -/

namespace Sys2Proof.Machine

/-- `8xy0`, LD Vx, Vy (R95). -/
def execLdReg (x y : RegIx) (s : State) : Result := done (s.setV x (s.getV y))

/-- `8xy1`, OR Vx, Vy (R96): VF is not written. -/
def execOrReg (x y : RegIx) (s : State) : Result := done (s.setV x (s.getV x ||| s.getV y))

/-- `8xy2`, AND Vx, Vy (R97): VF is not written. -/
def execAndReg (x y : RegIx) (s : State) : Result := done (s.setV x (s.getV x &&& s.getV y))

/-- `8xy3`, XOR Vx, Vy (R98): VF is not written. -/
def execXorReg (x y : RegIx) (s : State) : Result := done (s.setV x (s.getV x ^^^ s.getV y))

/-- `8xy4`, ADD Vx, Vy (R99): the result, then the carry. -/
def execAddReg (x y : RegIx) (s : State) : Result :=
  done (s.writeResultThenFlag x (addFlags (s.getV x) (s.getV y)))

/-- `8xy5`, SUB Vx, Vy (R100): the borrow, then the result. -/
def execSub (x y : RegIx) (s : State) : Result :=
  done (s.writeFlagThenResult x (subFlags (s.getV x) (s.getV y)))

/-- `8xy6`, SHR Vx (R101): the bit shifted out, then the result; `y` is ignored (R68). -/
def execShr (x _y : RegIx) (s : State) : Result := done (s.writeFlagThenResult x (shrFlags (s.getV x)))

/-- `8xy7`, SUBN Vx, Vy (R102): the borrow, then the result. -/
def execSubn (x y : RegIx) (s : State) : Result :=
  done (s.writeFlagThenResult x (subFlags (s.getV y) (s.getV x)))

/-- `8xyE`, SHL Vx (R103): the bit shifted out, then the result; `y` is ignored (R68). -/
def execShl (x _y : RegIx) (s : State) : Result := done (s.writeFlagThenResult x (shlFlags (s.getV x)))

end Sys2Proof.Machine
end

