-- ==== Sys2Proof/Machine/Draw.lean ====
section
/-! DEFINITION. The sprite compositor and `Dxyn` (44_draw.md). -/

namespace Sys2Proof.Machine

/-- What a draw works on: the display, and whether a pixel has gone from set to unset. -/
structure Canvas where
  disp : Display
  hit : Bool
deriving DecidableEq, Repr

/-- One pixel of R110's inner loop: the cell at the wrapped coordinates (R112) is XORed with `bit`; a set bit on a set cell is
a collision (R113). -/
def drawPixel (row col : Nat) (bit : Bool) (c : Canvas) : Canvas :=
  let r := row % 32
  let k := col % 64
  have hr : r < 32 := Nat.mod_lt _ (by decide)
  have hk : k < 64 := Nat.mod_lt _ (by decide)
  let old := (c.disp[r])[k]
  { disp := c.disp.set r ((c.disp[r]).set k (old ^^ bit)), hit := c.hit || (bit && old) }

/-- The pixels of one sprite byte in columns `k, k+1, ...`: `left` bits are still to draw, bit 7 was the first, so the next
one is bit `left - 1` (R111). -/
def drawBits (row col : Nat) (b : Byte) : Nat → Canvas → Canvas
  | 0, c => c
  | left + 1, c => drawBits row (col + 1) b left (drawPixel row col (b.getLsbD left) c)

/-- One sprite row: the eight bits of its byte, from bit 7 at column `cx` to bit 0 at column `cx + 7` (R111). -/
def drawRow (cx row : Nat) (b : Byte) (c : Canvas) : Canvas := drawBits row cx b 8 c

/-- The sprite rows, first byte on top (R111). -/
def drawRows (cx row : Nat) : List Byte → Canvas → Canvas
  | [], c => c
  | b :: rest, c => drawRows cx (row + 1) rest (drawRow cx row b c)

/-- `Dxyn`, DRW Vx, Vy, n (R110): the coordinates are read first, the whole range is checked before anything is drawn (R114),
VF is written last (R113). With `n = 0` nothing is read and VF is 0. -/
def execDrw (x y : RegIx) (n : Nibble) (s : State) : Result :=
  match memRead s.mem s.i.toNat n.toNat with
  | .error f => raise f s
  | .ok bytes =>
    let c := drawRows (s.getV x).toNat (s.getV y).toNat bytes { disp := s.disp, hit := false }
    done ((s.setDisp c.disp).setV vf (flagByte c.hit))

end Sys2Proof.Machine
end

