-- ==== Sys2Proof/Machine/Operands.lean ====
section
/-! DEFINITION. The operand forms (R63, R118, R119, R124, R125, R206): how a field, an input or a register becomes a value. -/

namespace Sys2Proof.Machine

/-- `zext_16(nnn)` (R63). -/
def zextAddr (nnn : Addr12) : Word := nnn.zeroExtend 16

/-- `zext_16(v)` of a byte (R63). -/
def zextByte (b : Byte) : Word := b.zeroExtend 16

/-- The low digit of a byte, `v[3:0]`: it selects a key (R118) and a glyph (R124). -/
def lowDigit (b : Byte) : Nat := b.toNat % 16

/-- The base address `I` as an unbounded number: the addresses of an access are `I + i` (R45, R206). -/
def State.baseAddr (s : State) : Nat := s.i.toNat

/-- Whether logical key `k` is down in the sample of this Step (R21). -/
def keyDown (keys : BitVec 16) (k : Nat) : Bool := keys.getLsbD k

/-- The lowest-numbered key down, looking at keys `k, k+1, ...` for `fuel` keys (R119). -/
def lowestKeyFrom (keys : BitVec 16) (k : Nat) : Nat → Option Nat
  | 0 => none
  | fuel + 1 => if keyDown keys k then some k else lowestKeyFrom keys (k + 1) fuel

/-- "the least k in 0..15 with KEYS[k] = 1", if any key is down (R117, R119). -/
def lowestKey (keys : BitVec 16) : Option Nat := lowestKeyFrom keys 0 16

/-- The address of the glyph of a digit, `FONT_BASE + GLYPH_BYTES * d` with `GLYPH_BYTES = 5` (R124). -/
def glyphAddr (digit : Nat) : Word := BitVec.ofNat 16 (Config.fontBase.val + 5 * digit)

/-- The three decimal digits of a byte: hundreds, tens, ones (R125). -/
def decimalDigits (b : Byte) : List Byte :=
  [BitVec.ofNat 8 (b.toNat / 100), BitVec.ofNat 8 (b.toNat / 10 % 10), BitVec.ofNat 8 (b.toNat % 10)]

end Sys2Proof.Machine
end

