-- ==== Sys2Proof/Machine/Flow.lean ====
section
/-! DEFINITION. Control transfer (40_flow.md), and the no-op of the words that match no row (30_encoding.md R65). -/

namespace Sys2Proof.Machine

/-- `00EE`, RET (R80). -/
def execRet (s : State) : Result :=
  match s.pop with
  | none => raise .stackUnderflow s
  | some (target, t) => .next (t.goto target)

/-- `1nnn`, JP nnn (R81). -/
def execJp (nnn : Addr12) (s : State) : Result := .next (s.goto (zextAddr nnn))

/-- `2nnn`, CALL nnn (R82): the address pushed is that of the next instruction, `pc0 + 2`. -/
def execCall (nnn : Addr12) (s : State) : Result :=
  match s.push (s.pc + 2) with
  | none => raise .stackOverflow s
  | some t => .next (t.goto (zextAddr nnn))

/-- `Bnnn`, JP V0, nnn (R83): the offset is always V0; no range check (D26). -/
def execJpV0 (nnn : Addr12) (s : State) : Result := .next (s.goto (zextByte (s.getV 0) + zextAddr nnn))

/-- A word that matches no row of the opcode map: "`pc <- (pc0 + 2) mod 65536`; nothing else changes" (R65). -/
def execNop (s : State) : Result := done s

end Sys2Proof.Machine
end

