-- ==== Sys2Proof/Machine/Immediate.lean ====
section
/-! DEFINITION. Register loads and adds with an immediate, and the random byte (42_immediate.md). -/

namespace Sys2Proof.Machine

/-- `6xkk`, LD Vx, kk (R90). -/
def execLdImm (x : RegIx) (kk : Byte) (s : State) : Result := done (s.setV x kk)

/-- `7xkk`, ADD Vx, kk (R91): modulo 256, no flag. -/
def execAddImm (x : RegIx) (kk : Byte) (s : State) : Result := done (s.setV x (s.getV x + kk))

/-- `Annn`, LD I, nnn (R92). -/
def execLdI (nnn : Addr12) (s : State) : Result := done (s.setI (zextAddr nnn))

/-- `Cxkk`, RND Vx, kk (R93): the random byte is the input `RND` of this Step (R22). -/
def execRnd (x : RegIx) (kk : Byte) (s : State) : Result := done (s.setV x (s.env.rnd &&& kk))

end Sys2Proof.Machine
end

