-- ==== Sys2Proof/Machine/Keys.lean ====
section
/-! DEFINITION. Key skips and the key wait (45_keys.md). -/

namespace Sys2Proof.Machine

/-- `Ex9E`, SKP Vx (R115): the key is selected by the low four bits of `V[x]` (R118). -/
def execSkp (x : RegIx) (s : State) : Result := .next (s.skipIf (keyDown s.env.keys (lowDigit (s.getV x))))

/-- `ExA1`, SKNP Vx (R116). -/
def execSknp (x : RegIx) (s : State) : Result := .next (s.skipIf (!keyDown s.env.keys (lowDigit (s.getV x))))

/-- `Fx0A`, LD Vx, K (R117): with no key down the Step is AwaitingKey and the next Step executes the instruction again; else
the lowest key down is loaded (R119). -/
def execLdVxK (x : RegIx) (s : State) : Result :=
  .next (match lowestKey s.env.keys with
    | none => s.await
    | some k => (s.setV x (BitVec.ofNat 8 k)).advance)

end Sys2Proof.Machine
end

