-- ==== Sys2Proof/Machine/Skip.lean ====
section
/-! DEFINITION. Conditional skips on registers and immediates (41_skip.md). -/

namespace Sys2Proof.Machine

/-- `3xkk`, SE Vx, kk (R85). -/
def execSeImm (x : RegIx) (kk : Byte) (s : State) : Result := .next (s.skipIf (s.getV x == kk))

/-- `4xkk`, SNE Vx, kk (R86). -/
def execSneImm (x : RegIx) (kk : Byte) (s : State) : Result := .next (s.skipIf (s.getV x != kk))

/-- `5xy0`, SE Vx, Vy (R87). -/
def execSeReg (x y : RegIx) (s : State) : Result := .next (s.skipIf (s.getV x == s.getV y))

/-- `9xy0`, SNE Vx, Vy (R88). -/
def execSneReg (x y : RegIx) (s : State) : Result := .next (s.skipIf (s.getV x != s.getV y))

end Sys2Proof.Machine
end

