-- ==== Sys2Proof/Machine/Timers.lean ====
section
/-! DEFINITION. Timer access, address-register arithmetic, font, decimal digits, register block store and load (46_timers_index_memory.md). -/

namespace Sys2Proof.Machine

/-- `Fx07`, LD Vx, DT (R120). -/
def execLdVxDt (x : RegIx) (s : State) : Result := done (s.setV x s.dt)

/-- `Fx15`, LD DT, Vx (R121). -/
def execLdDtVx (x : RegIx) (s : State) : Result := done (s.setDt (s.getV x))

/-- `Fx18`, LD ST, Vx (R122). -/
def execLdStVx (x : RegIx) (s : State) : Result := done (s.setSt (s.getV x))

/-- `Fx1E`, ADD I, Vx (R123): modulo 65536, no flag. -/
def execAddI (x : RegIx) (s : State) : Result := done (s.setI (s.i + zextByte (s.getV x)))

/-- `Fx29`, LD F, Vx (R124): the digit is the low four bits of `V[x]`; no memory is read. -/
def execLdF (x : RegIx) (s : State) : Result := done (s.setI (glyphAddr (lowDigit (s.getV x))))

/-- `Fx33`, LD B, Vx (R125). -/
def execLdB (x : RegIx) (s : State) : Result :=
  match memWrite s.mem s.baseAddr (decimalDigits (s.getV x)) with
  | .error f => raise f s
  | .ok m => done (s.setMem m)

/-- `Fx55`, LD [I], Vx (R126): `I` is unchanged. -/
def execStoreRegs (x : RegIx) (s : State) : Result :=
  match memWrite s.mem s.baseAddr (s.regBlock x) with
  | .error f => raise f s
  | .ok m => done (s.setMem m)

/-- `Fx65`, LD Vx, [I] (R127): `I` is unchanged. -/
def execLoadRegs (x : RegIx) (s : State) : Result :=
  if inBounds s.baseAddr (x.val + 1) then done { s with v := loadBlock s.v s.mem s.baseAddr x }
  else raise .memoryOutOfBounds s

end Sys2Proof.Machine
end

