-- ==== Sys2Proof/Machine/Fetch.lean ====
section
/-! DEFINITION. The fetch (20_memory.md R42, R46) and the Step operation: fetch, decode, execute (10_state.md R23). -/

namespace Sys2Proof.Machine

/-- The instruction word at an address, high byte first, with no check (R42). -/
def wordAt (m : Memory) (a : Nat) : Word := wordOfBytes (memGet m a) (memGet m (a + 1))

/-- `w <- MemRead(pc0, 2)`: MemoryOutOfBounds exactly when `pc0 > 0xFFE`; any parity of `pc0` will do (R46, R47). -/
def fetchWord (s : State) : Except Fault Word :=
  if inBounds s.pc.toNat 2 then .ok (wordAt s.mem s.pc.toNat) else .error .memoryOutOfBounds

/-- Decode and execute: the selected instruction, or a no-op for a word that matches no row (R64, R65). -/
def runWord (w : Word) (s : State) : Result :=
  match decodeBytes w.hiByte w.loByte with
  | some i => exec i s
  | none => execNop s

/-- The Step operation of R23, with KEYS and RND as `s.env` holds them. The fetch fault takes precedence (R138). -/
def stepOp (s : State) : Result :=
  match fetchWord s with
  | .error f => raise f s
  | .ok w => runWord w s

/-- The state with the word `w` stored at `pc`, where the next Step fetches it. A `pc` from which nothing can be fetched is
first set to `LOAD_ADDR`; nothing else changes. -/
def placeWord (s : State) (w : Word) : State :=
  let t := if inBounds s.pc.toNat 2 then s else { s with pc := loadAddr }
  { t with mem := memSetList t.mem t.pc.toNat [w.hiByte, w.loByte] }

end Sys2Proof.Machine
end

