-- ==== Sys2Proof/Machine/HostOps.lean ====
section
/-! DEFINITION. The six operations the host can invoke (10_state.md R23 to R27, R35), and the host's move between two Steps. -/

namespace Sys2Proof.Machine

/-! ### Tick (R26) -/

/-- One timer under one Tick: down by 1, with a floor of 0 (R26). -/
def tickTimer (b : Byte) : Byte := if b = 0 then 0 else b - 1

/-- Tick: both timers in one operation; nothing else changes (R26). -/
def tick (s : State) : State := { s with dt := tickTimer s.dt, st := tickTimer s.st }

/-- One timer after `n` Ticks. -/
def timerAfter (n : Nat) (b : Byte) : Byte := BitVec.ofNat 8 (b.toNat - n)

/-- `n` Ticks at once (`tickTimes_eq_iterate` in Laws/HostOps.lean: it is `tick`, n times). -/
def tickTimes (n : Nat) (s : State) : State := { s with dt := timerAfter n s.dt, st := timerAfter n s.st }

/-! ### Reset and Load (R24, R25) -/

/-- Reset: every cell of the hardware at its reset value, whatever the state was (R24, R30, R160). The host's lines, script and
move counter are not the core's and stay; the Load window opens (R162). -/
def hostReset (s : State) : State := { State.reset with env := { s.env with loadOpen := true } }

/-- `MEM[a + i] <- b[i]`; nothing else changes (R25). -/
def loadBytes (a : Nat) (bytes : List Byte) (s : State) : State := { s with mem := memSetList s.mem a bytes }

/-! ### The inputs of a Step (R21, R22) -/

/-- The lines KEYS and RND as the next Step samples them. -/
def State.withInputs (s : State) (keys : BitVec 16) (rnd : Byte) : State :=
  { s with env := { s.env with keys := keys, rnd := rnd } }

/-- The Load window closes with the first Step (R25, D25). -/
def State.closeLoad (s : State) : State := { s with env := { s.env with loadOpen := false } }

/-! ### The operations as the host sees them (R35) -/

/-- The six operations and their arguments (R35). -/
inductive HostOp where
  | reset
  | load (a : Nat) (bytes : List Byte)
  | step (keys : BitVec 16) (rnd : Byte)
  | tick
  | readDisplay
  | readState
deriving DecidableEq, Repr

/-- What the State readout shows (R27, R35): the stack slots are not part of it. -/
structure Readout where
  v : Vector Byte 16
  i : Word
  pc : Word
  sp : Fin 17
  dt : Byte
  st : Byte
  mem : Memory
deriving DecidableEq, Repr

/-- What an operation answers the host. -/
inductive HostAnswer where
  /-- Reset, Tick and a performed Load answer nothing (R35). -/
  | done
  /-- A Load with `a + m > 4096` "is not performed at all" (R25). -/
  | loadRefused
  /-- A Load after the first Step is outside the spec and not performed (R25, U28). -/
  | loadTooLate
  /-- A Step that did not fault (R130). -/
  | stepped (r : Report)
  /-- A Step that faulted (R130, R134). -/
  | faulted (f : Fault)
  /-- A Step whose instruction the model gives no meaning: never answered, since `exec` refuses nothing. -/
  | stepRefused (r : Refusal)
  /-- The Display readout (R27). -/
  | display (d : Display)
  /-- The State readout (R27). -/
  | cells (c : Readout)
deriving DecidableEq, Repr

/-- The state readout of R27. -/
def State.readout (s : State) : Readout :=
  { v := s.v, i := s.i, pc := s.pc, sp := s.sp, dt := s.dt, st := s.st, mem := s.mem }

/-- One operation of the host: its answer, and the state after it. A Step that faults leaves every cell as it was (R134). -/
def hostOp : HostOp → State → HostAnswer × State
  | .reset, s => (.done, hostReset s)
  | .load a bytes, s =>
    if !s.env.loadOpen then (.loadTooLate, s)
    else if loadFits a bytes.length then (.done, loadBytes a bytes s)
    else (.loadRefused, s)
  | .step keys rnd, s =>
    let s0 := (s.withInputs keys rnd).closeLoad
    match stepOp s0 with
    | .next t => (.stepped t.report, t)
    | .fault f => (.faulted f, s0)
    | .refused r => (.stepRefused r, s0)
  | .tick, s => (.done, tick s)
  | .readDisplay, s => (.display s.disp, s)
  | .readState, s => (.cells s.readout, s)

/-- A list of operations, in order; the state after them. -/
def hostRun : List HostOp → State → State
  | [], s => s
  | op :: rest, s => hostRun rest (hostOp op s).2

/-! ### The numbers of the results (R131, R132, D11) -/

/-- Status 0 = Normal, 1 = AwaitingKey (R131). -/
def Report.status : Report → Nat
  | .normal => 0
  | .awaitingKey => 1

/-- The fault codes 1 to 4 (R132). -/
def Fault.code : Fault → Nat
  | .memoryOutOfBounds => 1
  | .stackOverflow => 2
  | .stackUnderflow => 3
  | .unimplementedInstruction => 4

/-- The status a Step's answer shows the host: 0, 1, or 2 for a fault (R131); no status for another answer. -/
def HostAnswer.status : HostAnswer → Option Nat
  | .stepped r => some r.status
  | .faulted _ => some 2
  | .done | .loadRefused | .loadTooLate | .stepRefused _ | .display _ | .cells _ => none

/-! ### Between two Steps -/

/-- The host's next move: the first of the script, else a free one (log entry 4). -/
def Env.nextMove (e : Env) : HostMove :=
  match e.script with
  | m :: _ => m
  | [] => Config.hostMove e.moves

/-- The host's record after its move: the lines of the next Step, the move consumed, the Load window closed. -/
def Env.afterMove (e : Env) : Env where
  keys := e.nextMove.keys
  rnd := e.nextMove.rnd
  script := e.script.tail
  moves := e.moves + 1
  loadOpen := false

/-- What happens between a Step and the next: the host's Ticks, then the inputs of the next Step (R21, R22, R26, R31). -/
def betweenSteps (s : State) : State := { tickTimes s.env.nextMove.ticks s with env := s.env.afterMove }

end Sys2Proof.Machine
end

