-- ==== Sys2Proof/Machine/Step.lean ====
section
/-! DEFINITION. The machine's step: one Step operation (R23), then the host's move (R31); and the placing of a word where it is fetched. -/

namespace Sys2Proof.Machine

/-- One Step, and after a Step that did not fault the host's move before the next one (log entries 3 and 4). -/
def step (s : State) : Host.Outcome State Fault Refusal :=
  match stepOp s with
  | .next t => .next (betweenSteps t)
  | .fault f => .fault f
  | .refused r => .refused r

/-- `s` with the word of the opcode table's bits stored at `pc` (log entry 8). -/
def State.withFetchWord (s : State) (nbits w : Nat) : State := placeWord s (tableWord nbits w)

end Sys2Proof.Machine
end

