-- ==== Sys2Proof/Safety.lean ====
section
/-! DEFINITION. The words claims are stated in: the parts of the state, frames over them, and the invariant of a run. -/

namespace Sys2Proof.Machine

/-- The readable parts of the hardware's state (R28), and the result output. -/
inductive Part where
  | reg (x : RegIx)
  | byte (a : Nat)
  | addrReg
  | pc
  | slot (k : Fin 16)
  | sp
  | pixel (r : Fin 32) (c : Fin 64)
  | dt
  | st
  | report
deriving DecidableEq, Repr

/-- What a part holds, as a number. -/
def Part.view : Part → State → Nat
  | .reg x, s => (s.getV x).toNat
  | .byte a, s => (memGet s.mem a).toNat
  | .addrReg, s => s.i.toNat
  | .pc, s => s.pc.toNat
  | .slot k, s => (s.stack[k.val]).toNat
  | .sp, s => s.sp.val
  | .pixel r c, s => (pixelAt s.disp r.val c.val).toNat
  | .dt, s => s.dt.toNat
  | .st, s => s.st.toNat
  | .report, s => s.report.status

/-- THE FRAME: every part that `W` does not name holds after what it held before, and the host's record is untouched. -/
def Frame (W : Part → Prop) (s t : State) : Prop := (∀ p, ¬ W p → p.view t = p.view s) ∧ t.env = s.env

/-- The parts every completed Step may write: `pc` and the result output. -/
def Part.isControl (p : Part) : Prop := p = .pc ∨ p = .report

/-- The part is one of the `n` bytes from the unbounded address `a` on (R45). -/
def Part.inBytes (a n : Nat) (p : Part) : Prop := ∃ k, k < n ∧ p = .byte (a + k)

/-- The hardware's cells of two states are equal: all of R28's table, and nothing of the model's own fields. -/
def State.sameCells (s t : State) : Prop :=
  t.mem = s.mem ∧ t.v = s.v ∧ t.i = s.i ∧ t.pc = s.pc ∧ t.stack = s.stack ∧ t.sp = s.sp ∧ t.disp = s.disp ∧
    t.dt = s.dt ∧ t.st = s.st

/-- What every run keeps: memory in canonical form and within its 4096 addresses (R40), `pc` at most 0x10FE (R17), and every
live return address at most 0x1000 (R80, R82). -/
def State.Inv (s : State) : Prop :=
  s.mem.wf = true ∧ s.pc.toNat ≤ 0x10FE ∧ ∀ k : Fin 16, k.val < s.sp.val → (s.stack[k.val]).toNat ≤ 0x1000

/-- A state from which the next Step fetches an instruction word (R46). -/
def State.fetchable (s : State) : Prop := s.pc.toNat ≤ 0xFFE

/-- The sprite of `bytes` with its top left corner at column `cx` and row `cy` covers the cell (r, c) with a 1 bit: some row `i`
and column `j` of the sprite fall on the cell after wrapping (R112), and bit `7 - j` of its byte `i` is 1 (R111). -/
def spriteBit (bytes : List Byte) (cx cy r c : Nat) : Prop :=
  ∃ i j, i < bytes.length ∧ j < 8 ∧ (cy + i) % 32 = r ∧ (cx + j) % 64 = c ∧ (bytes.getD i 0).getLsbD (7 - j) = true

/-- The instruction the next Step fetches and decodes, if its word is fetchable and matches a row (R46, R64). -/
def State.current (s : State) : Option Instr :=
  if s.pc.toNat ≤ 0xFFE then decodeWord (wordAt s.mem s.pc.toNat) else none

/-- The four control transfers of 40_flow.md (R16, R200). -/
def isTransfer : Instr → Bool
  | .ret | .jp _ | .call _ | .jpV0 _ => true
  | _ => false

/-- Whether the condition of a skip instruction holds in a state (R85 to R88, R115, R116); `none` for every other instruction. -/
def skipCond (i : Instr) (s : State) : Option Bool :=
  match i with
  | .seImm x kk => some (decide (s.getV x = kk))
  | .sneImm x kk => some (decide (s.getV x ≠ kk))
  | .seReg x y => some (decide (s.getV x = s.getV y))
  | .sneReg x y => some (decide (s.getV x ≠ s.getV y))
  | .skp x => some (s.env.keys.getLsbD ((s.getV x).toNat % 16))
  | .sknp x => some (!s.env.keys.getLsbD ((s.getV x).toNat % 16))
  | _ => none

/-- The fault an instruction raises in a state, as the table of R132 lists them; `none` where it raises none. -/
def faultIn (i : Instr) (s : State) : Option Fault :=
  match i with
  | .ret => if s.sp = 0 then some .stackUnderflow else none
  | .call _ => if s.sp = 16 then some .stackOverflow else none
  | .drw _ _ n => if 0 < n.toNat ∧ s.i.toNat + n.toNat - 1 > 0xFFF then some .memoryOutOfBounds else none
  | .ldB _ => if s.i.toNat + 2 > 0xFFF then some .memoryOutOfBounds else none
  | .storeRegs x => if s.i.toNat + x.val > 0xFFF then some .memoryOutOfBounds else none
  | .loadRegs x => if s.i.toNat + x.val > 0xFFF then some .memoryOutOfBounds else none
  | _ => none

/-- The words of R65's table, by family: those that match no row of the opcode map. -/
def isNoOpWord (w : Word) : Prop :=
  (w.family = 0x0 ∧ w ≠ 0x00EE) ∨
  ((w.family = 0x5 ∨ w.family = 0x9) ∧ w.nField ≠ 0x0) ∨
  (w.family = 0x8 ∧ w.nField ∈ [0x8, 0x9, 0xA, 0xB, 0xC, 0xD, 0xF]) ∨
  (w.family = 0xE ∧ w.kkField ∉ [0x9E, 0xA1]) ∨
  (w.family = 0xF ∧ w.kkField ∉ [0x07, 0x0A, 0x15, 0x18, 0x1E, 0x29, 0x33, 0x55, 0x65])

/-- The byte that a fetch sees at an address after an instruction that completes: what a store of `Fx33` or `Fx55` put there
(R125, R126), else what was there (R54). -/
def byteAfter (i : Instr) (s : State) (a : Nat) : Byte :=
  match i with
  | .ldB x =>
    if a = s.i.toNat then BitVec.ofNat 8 ((s.getV x).toNat / 100)
    else if a = s.i.toNat + 1 then BitVec.ofNat 8 ((s.getV x).toNat / 10 % 10)
    else if a = s.i.toNat + 2 then BitVec.ofNat 8 ((s.getV x).toNat % 10)
    else memGet s.mem a
  | .storeRegs x =>
    if s.i.toNat ≤ a ∧ a ≤ s.i.toNat + x.val then s.v.toList.getD (a - s.i.toNat) 0 else memGet s.mem a
  | _ => memGet s.mem a

/-- A run of `exec` over a list of instructions, stopping at the first fault or refusal. -/
def execAll : List Instr → State → Result
  | [], s => .next s
  | i :: rest, s =>
    match exec i s with
    | .next t => execAll rest t
    | .fault f => .fault f
    | .refused r => .refused r

end Sys2Proof.Machine
end

