-- ==== Sys2Proof/Certificates/Slice0/Obligations.lean ====
section
/-! DEFINITION. The statements for the provers. Each docstring names the rule of spec/ it formalises; a statement that rests on one of
the spec's own decisions (D<n> of 92_eei_decisions.md) or on a log entry says so. -/

open Sys2Proof Sys2Proof.Machine

/-! ### Encoding -/

/-- Decoding the two bytes of an encoded instruction gives the instruction back, for every instruction and every operand. -/
def Obligations.DecodeInvertsEncode : Prop :=
  ∀ i : Instr, decodeBytes (Word.hiByte (encode i)) (Word.loByte (encode i)) = some i

/-- No bit of a word that decodes is dropped: encoding the instruction gives the word back (the ignored `y` of SHR and SHL is
kept by the decoder, R68). -/
def Obligations.EncodeInvertsDecode : Prop :=
  ∀ (w : Word) (i : Instr), decodeWord w = some i → encode i = w

/-- "a word `w` selects the row exactly when `w & mask = match`" (R66), and the patterns are pairwise disjoint (R64, derived). The
row of RET is decision D2, the exact match of every fixed digit decision D4 (log entry 11). -/
def Obligations.RowsSelectByMaskAndMatch : Prop :=
  (∀ (w : Word) (i : Instr), decodeWord w = some i → w &&& i.mask = i.matchBits) ∧
  (∀ (w : Word) (i : Instr), w &&& i.mask = i.matchBits →
    ∃ j : Instr, decodeWord w = some j ∧ j.mask = i.mask ∧ j.matchBits = i.matchBits) ∧
  (∀ (i j : Instr) (w : Word), w &&& i.mask = i.matchBits → w &&& j.mask = j.matchBits → i.matchBits = j.matchBits)

/-- Words written out from the spec's encodings: 0x7220 is vector M3 of 95_test_vectors.md, the others stand in its section 2.10. That
0x00EE is RET is decision D2 (log entry 11, PRESUMED), that 0x00E0 is a no-op decision D3, that 0x5AB1, 0x8AB8, 0xE19D, 0xF366 and 0xFFFF
are no-ops rests on decision D4; that a no-op word decodes to `none` is the model's choice (log entry 7). -/
def Obligations.SpecWordsDecode : Prop :=
  decodeWord 0x00EE = some .ret ∧ decodeWord 0x10EE = some (.jp 0x0EE) ∧ decodeWord 0x5AB0 = some (.seReg 10 11) ∧
  decodeWord 0x7220 = some (.addImm 2 0x20) ∧ decodeWord 0x8AB5 = some (.sub 10 11) ∧ decodeWord 0x8ABE = some (.shl 10 11) ∧
  decodeWord 0xD12A = some (.drw 1 2 0xA) ∧ decodeWord 0xE19E = some (.skp 1) ∧ decodeWord 0xF30A = some (.ldVxK 3) ∧
  decodeWord 0xF365 = some (.loadRegs 3) ∧ decodeWord 0x00E0 = none ∧ decodeWord 0x5AB1 = none ∧ decodeWord 0x8AB8 = none ∧
  decodeWord 0xE19D = none ∧ decodeWord 0xF366 = none ∧ decodeWord 0xFFFF = none

/-- R65: the no-op words are exactly those of its table (decisions D3 and D4; that they decode to `none` is log entry 7), and one executes as
`pc <- (pc0 + 2) mod 65536` with nothing else changed, outcome Normal, whatever the state. -/
def Obligations.UnlistedWordsOnlyAdvancePc : Prop :=
  ∀ w : Word,
    (decodeWord w = none ↔ isNoOpWord w) ∧
    (isNoOpWord w → ∀ s : State, ∃ t, runWord w s = .next t ∧ t.pc.toNat = (s.pc.toNat + 2) % 65536 ∧
      t.report = .normal ∧ Frame Part.isControl s t)

/-! ### The Step -/

/-- When the word at `pc` is fetchable and decodes to `i`, the Step operation is `exec i`, and `step` is that followed by the host's
move (log entry 3) after a next state, and the same fault or refusal else. -/
def Obligations.StepRunsDecodedInstruction : Prop :=
  ∀ (s : State) (i : Instr), s.pc.toNat ≤ 0xFFE → decodeWord (wordAt s.mem s.pc.toNat) = some i →
    stepOp s = exec i s ∧
    step s = match exec i s with
      | .next t => .next (betweenSteps t)
      | .fault f => .fault f
      | .refused r => .refused r

/-- When the fetchable word at `pc` matches no row, the Step is the no-op (R65, decisions D3 and D4), then the host's move
(log entry 3). -/
def Obligations.StepRunsNoOpForUnlistedWord : Prop :=
  ∀ s : State, s.pc.toNat ≤ 0xFFE → decodeWord (wordAt s.mem s.pc.toNat) = none →
    stepOp s = execNop s ∧ ∃ t, execNop s = .next t ∧ step s = .next (betweenSteps t)

/-- The host's move between two Steps (log entries 2 and 3): as many Ticks as it says, each one as the Tick operation does it, then
new inputs; no other cell changes. The model's form of rules R26 and R31. -/
def Obligations.BetweenStepsIsTicksThenInputs : Prop :=
  ∀ s : State,
    (betweenSteps s).sameCells (hostRun (List.replicate s.env.nextMove.ticks .tick) s) ∧
    (betweenSteps s).report = s.report ∧
    (betweenSteps s).env.keys = s.env.nextMove.keys ∧ (betweenSteps s).env.rnd = s.env.nextMove.rnd

/-- The fetch: MemoryOutOfBounds exactly when `pc0 > 0xFFE` (decision D7), else the word `MEM[pc0] * 256 + MEM[pc0 + 1]`, at any
parity of `pc0`; the fetch fault comes before any fault of an instruction. -/
def Obligations.FetchIsBigEndianAndBounded : Prop :=
  ∀ s : State,
    (s.pc.toNat > 0xFFE → fetchWord s = .error .memoryOutOfBounds ∧ stepOp s = .fault .memoryOutOfBounds ∧
      step s = .fault .memoryOutOfBounds) ∧
    (s.pc.toNat ≤ 0xFFE → ∃ w : Word, fetchWord s = .ok w ∧
      w.toNat = (memGet s.mem s.pc.toNat).toNat * 256 + (memGet s.mem (s.pc.toNat + 1)).toNat ∧ stepOp s = runWord w s)

/-- A Step always ends in a next state or a fault: no instruction is refused, in any state. -/
def Obligations.StepAlwaysAnswers : Prop :=
  ∀ s : State, (∃ t, step s = .next t) ∨ (∃ f, step s = .fault f)

/-- AwaitingKey is the result of an `Fx0A` with no key down and of nothing else, and changes no cell. -/
def Obligations.AwaitingKeyOnlyFromKeyWait : Prop :=
  ∀ s t : State, stepOp s = .next t → t.report = .awaitingKey →
    (∃ x, s.current = some (.ldVxK x)) ∧ s.env.keys = 0 ∧ s.sameCells t ∧ t.env = s.env

/-! ### Faults -/

/-- Which instruction faults, when, and with what: exactly the table of faults of 60_exceptions.md section 2 (`faultIn`);
otherwise it completes. The bounds are the spec's decisions D6, D8, D15 and D17 (log entry 12). -/
def Obligations.InstructionsFaultExactlyAsListed : Prop :=
  ∀ (i : Instr) (s : State),
    (∀ f, exec i s = .fault f ↔ faultIn i s = some f) ∧ (faultIn i s = none → ∃ t, exec i s = .next t)

/-- UnimplementedInstruction is never raised (decision D12). -/
def Obligations.UnimplementedInstructionNeverRaised : Prop :=
  ∀ s : State, step s ≠ .fault .unimplementedInstruction

/-- A Step that faults leaves every cell as it was (decision D10), and the next Step raises the same fault whatever KEYS and RND are,
a Tick in between or not. -/
def Obligations.FaultLeavesCellsAndRepeats : Prop :=
  ∀ (s t : State) (keys keys' : BitVec 16) (rnd rnd' : Byte) (f : Fault),
    hostOp (.step keys rnd) s = (.faulted f, t) →
      s.sameCells t ∧ (hostOp (.step keys' rnd') t).1 = .faulted f ∧ (hostOp (.step keys' rnd') (tick t)).1 = .faulted f

/-! ### Reset and the invariant -/

/-- Every cell has its reset value: zero, and `pc` 0x200 (decision D5). -/
def Obligations.ResetLeavesEveryCellZeroButPc : Prop :=
  (∀ a, memGet State.reset.mem a = 0) ∧ (∀ x, State.reset.getV x = 0) ∧ State.reset.i = 0 ∧ State.reset.pc = 0x200 ∧
  (∀ k : Fin 16, State.reset.stack[k.val] = 0) ∧ State.reset.sp = 0 ∧
  (∀ (r : Fin 32) (c : Fin 64), pixelAt State.reset.disp r.val c.val = false) ∧ State.reset.dt = 0 ∧ State.reset.st = 0

/-- The invariant holds at reset. -/
def Obligations.InvariantHoldsAtReset : Prop := State.reset.Inv

/-- Every step keeps the invariant: memory stays in canonical form within 4096 addresses, `pc` never exceeds 0x10FE, every live
return address stays at most 0x1000. From every state that meets it, reachable or not. -/
def Obligations.EveryStepKeepsInvariant : Prop :=
  ∀ s t : State, s.Inv → step s = .next t → t.Inv

/-- The Reset operation gives the same cells from every state. -/
def Obligations.HostResetIgnoresState : Prop :=
  ∀ s : State, ∃ t, hostOp .reset s = (.done, t) ∧ State.reset.sameCells t ∧ t.env.loadOpen = true

/-! ### Control transfer -/

/-- RET: with an empty stack StackUnderflow; else `SP` falls by one and `pc` is the slot it then names, which keeps its value
(encoding by decision D2, no advance added by decision D9). -/
def Obligations.RetPopsOrUnderflows : Prop :=
  ∀ s : State,
    (s.sp.val = 0 → exec .ret s = .fault .stackUnderflow) ∧
    (∀ k : Fin 16, s.sp.val = k.val + 1 →
      ∃ t, exec .ret s = .next t ∧ t.pc = s.stack[k.val] ∧ t.sp.val = k.val ∧ t.report = .normal ∧
        Frame (fun p => p = .sp ∨ p.isControl) s t)

/-- R81: `1nnn` sets `pc` to `nnn` and changes nothing else; a jump to itself changes no cell, and jumping there again changes nothing at
all; at 0xFFF the next fetch faults. -/
def Obligations.JpSetsPc : Prop :=
  ∀ (nnn : Addr12) (s : State),
    decodeWord (encNNN 0x1 nnn) = some (.jp nnn) ∧
    ∃ t, exec (.jp nnn) s = .next t ∧ t.pc.toNat = nnn.toNat ∧ t.report = .normal ∧ Frame Part.isControl s t ∧
      (nnn.toNat = s.pc.toNat → s.sameCells t ∧ exec (.jp nnn) t = .next t) ∧
      (nnn = 0xFFF → stepOp t = .fault .memoryOutOfBounds)

/-- CALL: with sixteen entries StackOverflow; else the address of the next instruction goes into `STACK[SP]` (decision D9), `SP`
rises by one (decision D8) and `pc` is `nnn`. -/
def Obligations.CallPushesNextAddressOrOverflows : Prop :=
  ∀ (nnn : Addr12) (s : State),
    (s.sp.val = 16 → exec (.call nnn) s = .fault .stackOverflow) ∧
    (∀ k : Fin 16, s.sp.val = k.val →
      ∃ t, exec (.call nnn) s = .next t ∧ (t.stack[k.val]).toNat = (s.pc.toNat + 2) % 65536 ∧ t.sp.val = k.val + 1 ∧
        t.pc.toNat = nnn.toNat ∧ t.report = .normal ∧ Frame (fun p => p = .slot k ∨ p = .sp ∨ p.isControl) s t)

/-- `Bnnn`: `pc` is the exact sum of V0 and `nnn`, at most 0x10FE; VF is not written; a target above 0xFFE is no fault of the jump
but of the next fetch (decision D26). -/
def Obligations.JpV0AddsV0 : Prop :=
  ∀ (nnn : Addr12) (s : State),
    ∃ t, exec (.jpV0 nnn) s = .next t ∧ t.pc.toNat = (s.getV 0).toNat + nnn.toNat ∧ t.pc.toNat ≤ 0x10FE ∧
      t.report = .normal ∧ Frame Part.isControl s t ∧ (t.pc.toNat > 0xFFE → stepOp t = .fault .memoryOutOfBounds)

/-- Calls and the same number of returns, within a depth of 16: `SP` and the entries below it are as before, and `pc` is the address
after the first call. The spec's derived rule of 40_flow.md (R84 is marked derived). -/
def Obligations.CallsThenReturnsRestoreStack : Prop :=
  ∀ (targets : List Addr12) (s : State), targets ≠ [] → s.sp.val + targets.length ≤ 16 →
    ∃ t, execAll (targets.map .call ++ List.replicate targets.length .ret) s = .next t ∧ t.pc = s.pc + 2 ∧ t.sp = s.sp ∧
      ∀ k : Fin 16, k.val < s.sp.val → t.stack[k.val] = s.stack[k.val]

/-! ### Skips -/

/-- R85 and R86: `3xkk` skips when `V[x] = kk`, `4xkk` when it differs; nothing but `pc` changes. -/
def Obligations.ImmediateSkipsCompare : Prop :=
  ∀ (x : RegIx) (kk : Byte) (s : State),
    decodeWord (encXKK 0x3 x kk) = some (.seImm x kk) ∧ decodeWord (encXKK 0x4 x kk) = some (.sneImm x kk) ∧
    (∃ t, exec (.seImm x kk) s = .next t ∧
      t.pc.toNat = (s.pc.toNat + if (s.getV x).toNat = kk.toNat then 4 else 2) % 65536 ∧ t.report = .normal ∧
      Frame Part.isControl s t) ∧
    (∃ t, exec (.sneImm x kk) s = .next t ∧
      t.pc.toNat = (s.pc.toNat + if (s.getV x).toNat = kk.toNat then 2 else 4) % 65536 ∧ t.report = .normal ∧
      Frame Part.isControl s t)

/-- R87 and R88: `5xy0` skips when `V[x] = V[y]`, `9xy0` when they differ; nothing but `pc` changes. Another low digit is a no-op by decision
D4, and decodes to `none` by the model's choice (log entry 7). -/
def Obligations.RegisterSkipsCompare : Prop :=
  ∀ (x y : RegIx) (s : State),
    decodeWord (encXYN 0x5 x y 0) = some (.seReg x y) ∧ decodeWord (encXYN 0x9 x y 0) = some (.sneReg x y) ∧
    (∀ n : Nibble, n ≠ 0 → decodeWord (encXYN 0x5 x y n) = none ∧ decodeWord (encXYN 0x9 x y n) = none) ∧
    (∃ t, exec (.seReg x y) s = .next t ∧
      t.pc.toNat = (s.pc.toNat + if (s.getV x).toNat = (s.getV y).toNat then 4 else 2) % 65536 ∧ t.report = .normal ∧
      Frame Part.isControl s t) ∧
    (∃ t, exec (.sneReg x y) s = .next t ∧
      t.pc.toNat = (s.pc.toNat + if (s.getV x).toNat = (s.getV y).toNat then 2 else 4) % 65536 ∧ t.report = .normal ∧
      Frame Part.isControl s t)

/-- A skip at the top of memory is no fault: `pc` is 0x1000 or 0x1002 and the next Step's fetch faults (R89 is marked derived; the fetch bound is
decision D7). -/
def Obligations.SkipAtTopFaultsOnlyAtNextFetch : Prop :=
  ∀ (i : Instr) (s : State) (c : Bool), skipCond i s = some c →
    (s.pc = 0xFFC → c = true → ∃ t, exec i s = .next t ∧ t.pc = 0x1000 ∧ stepOp t = .fault .memoryOutOfBounds) ∧
    (s.pc = 0xFFE → ∃ t, exec i s = .next t ∧ t.pc = (if c then 0x1002 else 0x1000) ∧
      stepOp t = .fault .memoryOutOfBounds)

/-- R15: an instruction that completes Normal and is no taken skip and no control transfer advances `pc` by 2; so does a no-op. -/
def Obligations.NormalAdvanceIsTwo : Prop :=
  (∀ (i : Instr) (s t : State), exec i s = .next t → t.report = .normal → isTransfer i = false → skipCond i s ≠ some true →
    t.pc.toNat = (s.pc.toNat + 2) % 65536) ∧
  (∀ (w : Word) (s t : State), decodeWord w = none → runWord w s = .next t → t.pc.toNat = (s.pc.toNat + 2) % 65536)

/-- R16: a skip whose condition holds advances `pc` by 4 and completes, and changes nothing else, so the skipped word is not executed; the
control transfers set `pc` outright; an `Fx0A` that finds no key (decision D22) and a Step that faults (decision D10, R134) leave `pc`. The
transfers' targets rest on decisions D9 and D26 (log entry 12), the key index of the key skips on D21. -/
def Obligations.SkipAdvanceIsFour : Prop :=
  (∀ (i : Instr) (s : State), skipCond i s = some true →
    ∃ t, exec i s = .next t ∧ t.pc.toNat = (s.pc.toNat + 4) % 65536 ∧ t.report = .normal ∧ Frame Part.isControl s t) ∧
  (∀ (nnn : Addr12) (s t : State),
    (exec (.jp nnn) s = .next t → t.pc.toNat = nnn.toNat) ∧ (exec (.call nnn) s = .next t → t.pc.toNat = nnn.toNat) ∧
    (exec (.jpV0 nnn) s = .next t → t.pc.toNat = (s.getV 0).toNat + nnn.toNat) ∧
    (exec .ret s = .next t → ∃ k : Fin 16, s.sp.val = k.val + 1 ∧ t.pc = s.stack[k.val])) ∧
  (∀ (x : RegIx) (s t : State), s.env.keys = 0 → exec (.ldVxK x) s = .next t → t.pc = s.pc) ∧
  (∀ (s t : State) (keys : BitVec 16) (rnd : Byte) (f : Fault), hostOp (.step keys rnd) s = (.faulted f, t) → t.pc = s.pc)

/-! ### Immediates and the random byte -/

/-- R90: `6xkk` loads `kk` into `V[x]`, VF included; nothing else changes but `pc`. -/
def Obligations.LdImmLoads : Prop :=
  ∀ (x : RegIx) (kk : Byte) (s : State),
    decodeWord (encXKK 0x6 x kk) = some (.ldImm x kk) ∧
    ∃ t, exec (.ldImm x kk) s = .next t ∧ t.getV x = kk ∧ t.pc.toNat = (s.pc.toNat + 2) % 65536 ∧ t.report = .normal ∧
      Frame (fun p => p = .reg x ∨ p.isControl) s t

/-- R91: `7xkk` adds modulo 256 with no flag, VF unchanged unless `x = 15`; applied twice it adds both immediates. -/
def Obligations.AddImmWrapsWithoutFlag : Prop :=
  ∀ (x : RegIx) (kk : Byte) (s : State),
    decodeWord (encXKK 0x7 x kk) = some (.addImm x kk) ∧
    ∃ t, exec (.addImm x kk) s = .next t ∧ (t.getV x).toNat = ((s.getV x).toNat + kk.toNat) % 256 ∧
      t.pc.toNat = (s.pc.toNat + 2) % 65536 ∧ t.report = .normal ∧ Frame (fun p => p = .reg x ∨ p.isControl) s t ∧
      ∀ kk' : Byte, ∃ u, exec (.addImm x kk') t = .next u ∧
        (u.getV x).toNat = ((s.getV x).toNat + kk.toNat + kk'.toNat) % 256

/-- R92: `Annn` sets `I` to `nnn`, so its bits 15:12 become 0; nothing else changes but `pc`. -/
def Obligations.LdISetsAddressRegister : Prop :=
  ∀ (nnn : Addr12) (s : State),
    decodeWord (encNNN 0xA nnn) = some (.ldI nnn) ∧
    ∃ t, exec (.ldI nnn) s = .next t ∧ t.i.toNat = nnn.toNat ∧ t.pc.toNat = (s.pc.toNat + 2) % 65536 ∧
      t.report = .normal ∧ Frame (fun p => p = .addrReg ∨ p.isControl) s t

/-- `Cxkk`: `V[x]` is the random byte of this Step masked with `kk`, for every random byte: a bit that is 0 in `kk` is 0, a bit that is
1 in `kk` is the random bit (decision D23). -/
def Obligations.RndMasksRandomByte : Prop :=
  ∀ (x : RegIx) (kk : Byte) (s : State),
    ∃ t, exec (.rnd x kk) s = .next t ∧
      (∀ b, b < 8 → (t.getV x).getLsbD b = (kk.getLsbD b && s.env.rnd.getLsbD b)) ∧
      t.pc.toNat = (s.pc.toNat + 2) % 65536 ∧ t.report = .normal ∧ Frame (fun p => p = .reg x ∨ p.isControl) s t

/-! ### The ALU -/

/-- R95 to R98: move, OR, AND, XOR write `V[x]` bit by bit from the operands before the instruction, and VF only where `x = 15`. -/
def Obligations.LogicInstructionsWriteOnlyVx : Prop :=
  ∀ (x y : RegIx) (s : State),
    decodeWord (encXYN 0x8 x y 0) = some (.ldReg x y) ∧ decodeWord (encXYN 0x8 x y 1) = some (.orReg x y) ∧
    decodeWord (encXYN 0x8 x y 2) = some (.andReg x y) ∧ decodeWord (encXYN 0x8 x y 3) = some (.xorReg x y) ∧
    ∀ p ∈ [(Instr.ldReg x y, fun (_ b : Bool) => b), (Instr.orReg x y, fun a b => a || b),
           (Instr.andReg x y, fun a b => a && b), (Instr.xorReg x y, fun a b => a != b)],
      ∃ t, exec p.1 s = .next t ∧
        (∀ k, k < 8 → (t.getV x).getLsbD k = p.2 ((s.getV x).getLsbD k) ((s.getV y).getLsbD k)) ∧
        t.pc.toNat = (s.pc.toNat + 2) % 65536 ∧ t.report = .normal ∧ Frame (fun q => q = .reg x ∨ q.isControl) s t

/-- `8xy4`: the sum modulo 256 in `V[x]` and the carry in VF; with `x = 15` VF ends holding the carry (decision D13). -/
def Obligations.AddRegSumsWithCarry : Prop :=
  ∀ (x y : RegIx) (s : State),
    ∃ t, exec (.addReg x y) s = .next t ∧
      (x ≠ 15 → (t.getV x).toNat = ((s.getV x).toNat + (s.getV y).toNat) % 256) ∧
      (t.getV 15).toNat = (if (s.getV x).toNat + (s.getV y).toNat > 255 then 1 else 0) ∧
      t.pc.toNat = (s.pc.toNat + 2) % 65536 ∧ t.report = .normal ∧
      Frame (fun p => p = .reg x ∨ p = .reg 15 ∨ p.isControl) s t

/-- `8xy5` and `8xy7`: the difference modulo 256 in `V[x]`, and VF 1 exactly ON BORROW; with `x = 15` VF ends holding the difference
(decision D13). -/
def Obligations.SubtractionsFlagBorrow : Prop :=
  ∀ (x y : RegIx) (s : State),
    (∃ t, exec (.sub x y) s = .next t ∧
      ((t.getV x).toNat : Int) = ((s.getV x).toNat - (s.getV y).toNat : Int) % 256 ∧
      (x ≠ 15 → (t.getV 15).toNat = if (s.getV y).toNat > (s.getV x).toNat then 1 else 0) ∧
      t.pc.toNat = (s.pc.toNat + 2) % 65536 ∧ t.report = .normal ∧
      Frame (fun p => p = .reg x ∨ p = .reg 15 ∨ p.isControl) s t) ∧
    (∃ t, exec (.subn x y) s = .next t ∧
      ((t.getV x).toNat : Int) = ((s.getV y).toNat - (s.getV x).toNat : Int) % 256 ∧
      (x ≠ 15 → (t.getV 15).toNat = if (s.getV x).toNat > (s.getV y).toNat then 1 else 0) ∧
      t.pc.toNat = (s.pc.toNat + 2) % 65536 ∧ t.report = .normal ∧
      Frame (fun p => p = .reg x ∨ p = .reg 15 ∨ p.isControl) s t)

/-- `8xy6` and `8xyE`: `V[x]` shifted by one in place, VF the bit shifted out as 0 or 1; `y` does not matter; with `x = 15` VF ends
holding the shifted value (decision D13). -/
def Obligations.ShiftsReportBitShiftedOut : Prop :=
  ∀ (x y : RegIx) (s : State),
    (∃ t, exec (.shr x y) s = .next t ∧ (t.getV x).toNat = (s.getV x).toNat / 2 ∧
      (x ≠ 15 → (t.getV 15).toNat = (s.getV x).toNat % 2) ∧
      t.pc.toNat = (s.pc.toNat + 2) % 65536 ∧ t.report = .normal ∧
      Frame (fun p => p = .reg x ∨ p = .reg 15 ∨ p.isControl) s t ∧ ∀ z, exec (.shr x z) s = .next t) ∧
    (∃ t, exec (.shl x y) s = .next t ∧ (t.getV x).toNat = (s.getV x).toNat * 2 % 256 ∧
      (x ≠ 15 → (t.getV 15).toNat = (s.getV x).toNat / 128) ∧
      t.pc.toNat = (s.pc.toNat + 2) % 65536 ∧ t.report = .normal ∧
      Frame (fun p => p = .reg x ∨ p = .reg 15 ∨ p.isControl) s t ∧ ∀ z, exec (.shl x z) s = .next t)

/-! ### The sprite draw -/

/-- `Dxyn` with its bytes in range: every cell the sprite covers with a 1 bit, after wrapping, is inverted and no other; memory and `I`
are untouched (bit order by decision D14, the range by decision D15). -/
def Obligations.DrawXorsSpriteOntoDisplay : Prop :=
  ∀ (x y : RegIx) (n : Nibble) (s : State), (n.toNat = 0 ∨ s.i.toNat + n.toNat - 1 ≤ 0xFFF) →
    ∃ t, exec (.drw x y n) s = .next t ∧
      (∀ (r : Fin 32) (c : Fin 64),
        (spriteBit (memGetList s.mem s.i.toNat n.toNat) (s.getV x).toNat (s.getV y).toNat r.val c.val →
          pixelAt t.disp r.val c.val = !pixelAt s.disp r.val c.val) ∧
        (¬ spriteBit (memGetList s.mem s.i.toNat n.toNat) (s.getV x).toNat (s.getV y).toNat r.val c.val →
          pixelAt t.disp r.val c.val = pixelAt s.disp r.val c.val)) ∧
      t.pc.toNat = (s.pc.toNat + 2) % 65536 ∧ t.report = .normal ∧
      Frame (fun p => (∃ r c, p = .pixel r c) ∨ p = .reg 15 ∨ p.isControl) s t

/-- The collision flag: VF is 1 when some cell under a 1 bit of the sprite was set before the draw, else 0, for every
draw (bit order by decision D14, the range and `n = 0` by decision D15). -/
def Obligations.DrawFlagsCollision : Prop :=
  ∀ (x y : RegIx) (n : Nibble) (s t : State), exec (.drw x y n) s = .next t →
    ((∃ (r : Fin 32) (c : Fin 64), pixelAt s.disp r.val c.val = true ∧
        spriteBit (memGetList s.mem s.i.toNat n.toNat) (s.getV x).toNat (s.getV y).toNat r.val c.val) →
      t.getV 15 = 1) ∧
    ((¬ ∃ (r : Fin 32) (c : Fin 64), pixelAt s.disp r.val c.val = true ∧
        spriteBit (memGetList s.mem s.i.toNat n.toNat) (s.getV x).toNat (s.getV y).toNat r.val c.val) →
      t.getV 15 = 0)

/-- The bounds of a draw: a fault exactly when a row's byte is above 0xFFF; with `n = 0` no fault whatever `I` holds, no cell changed
and VF 0 (decision D15). -/
def Obligations.DrawBoundsAndEmptySprite : Prop :=
  ∀ (x y : RegIx) (n : Nibble) (s : State),
    (n.toNat > 0 → s.i.toNat + n.toNat - 1 > 0xFFF → exec (.drw x y n) s = .fault .memoryOutOfBounds) ∧
    (n = 0 → ∃ t, exec (.drw x y n) s = .next t ∧ t.disp = s.disp ∧ t.getV 15 = 0)

/-- Drawing the same sprite again at the same place on the display a draw has left restores the display, and the second VF is 1 exactly
when some cell under a 1 bit of the sprite was unset before the first draw: on a clear display, when the sprite has a 1 bit. (R113 says
so of every display; its own rule for VF gives this, log entry 13.) The second draw may start from any state with that display, the same
memory, `I` and coordinates. -/
def Obligations.DrawTwiceRestoresDisplay : Prop :=
  ∀ (x y : RegIx) (n : Nibble) (s t s' t' : State), exec (.drw x y n) s = .next t →
    s'.disp = t.disp → s'.mem = s.mem → s'.i = s.i → s'.getV x = s.getV x → s'.getV y = s.getV y →
    exec (.drw x y n) s' = .next t' →
      t'.disp = s.disp ∧
      (t'.getV 15 = 1 ↔ ∃ (r : Fin 32) (c : Fin 64), pixelAt s.disp r.val c.val = false ∧
        spriteBit (memGetList s.mem s.i.toNat n.toNat) (s.getV x).toNat (s.getV y).toNat r.val c.val) ∧
      ((∀ (r : Fin 32) (c : Fin 64), pixelAt s.disp r.val c.val = false) →
        (t'.getV 15 = 1 ↔ ∃ k b, k < n.toNat ∧ b < 8 ∧ (memGet s.mem (s.i.toNat + k)).getLsbD b = true))

/-! ### Keys -/

/-- `Ex9E` and `ExA1`: skip by the level of the key whose number is the low four bits of `V[x]` (decision D21). -/
def Obligations.KeySkipsTestSampledKey : Prop :=
  ∀ (x : RegIx) (s : State),
    (∃ t, exec (.skp x) s = .next t ∧
      t.pc.toNat = (s.pc.toNat + if s.env.keys.getLsbD ((s.getV x).toNat % 16) then 4 else 2) % 65536 ∧
      t.report = .normal ∧ Frame Part.isControl s t) ∧
    (∃ t, exec (.sknp x) s = .next t ∧
      t.pc.toNat = (s.pc.toNat + if s.env.keys.getLsbD ((s.getV x).toNat % 16) then 2 else 4) % 65536 ∧
      t.report = .normal ∧ Frame Part.isControl s t)

/-- `Fx0A`: with no key down AwaitingKey and no cell changed; else the least key down goes into `V[x]` (decision D22). -/
def Obligations.KeyWaitLoadsLowestKey : Prop :=
  ∀ (x : RegIx) (s : State),
    (s.env.keys = 0 → ∃ t, exec (.ldVxK x) s = .next t ∧ t.report = .awaitingKey ∧ s.sameCells t ∧ t.env = s.env) ∧
    (∀ k, k < 16 → s.env.keys.getLsbD k = true → (∀ j, j < k → s.env.keys.getLsbD j = false) →
      ∃ t, exec (.ldVxK x) s = .next t ∧ (t.getV x).toNat = k ∧ t.pc.toNat = (s.pc.toNat + 2) % 65536 ∧
        t.report = .normal ∧ Frame (fun p => p = .reg x ∨ p.isControl) s t)

/-! ### Timers, `I`, font, memory blocks -/

/-- R120: `Fx07` reads the delay timer into `V[x]` and leaves it. -/
def Obligations.LdVxDtReadsDelayTimer : Prop :=
  ∀ (x : RegIx) (s : State),
    decodeWord (encXKK 0xF x 0x07) = some (.ldVxDt x) ∧
    ∃ t, exec (.ldVxDt x) s = .next t ∧ t.getV x = s.dt ∧ t.pc.toNat = (s.pc.toNat + 2) % 65536 ∧ t.report = .normal ∧
      Frame (fun p => p = .reg x ∨ p.isControl) s t

/-- R121: `Fx15` sets the delay timer to `V[x]`; it then counts down by one per Tick to 0 and stays there. -/
def Obligations.LdDtVxSetsDelayTimer : Prop :=
  ∀ (x : RegIx) (s : State),
    decodeWord (encXKK 0xF x 0x15) = some (.ldDtVx x) ∧
    ∃ t, exec (.ldDtVx x) s = .next t ∧ t.dt = s.getV x ∧ t.pc.toNat = (s.pc.toNat + 2) % 65536 ∧ t.report = .normal ∧
      Frame (fun p => p = .dt ∨ p.isControl) s t ∧
      ∀ n, (hostRun (List.replicate n .tick) t).dt.toNat = (s.getV x).toNat - n

/-- R122: `Fx18` sets the sound timer to `V[x]`; no instruction reads it: another value of `ST` changes nothing but `ST` itself. -/
def Obligations.LdStVxSetsSoundTimerNothingReads : Prop :=
  (∀ (x : RegIx) (s : State),
    decodeWord (encXKK 0xF x 0x18) = some (.ldStVx x) ∧
    ∃ t, exec (.ldStVx x) s = .next t ∧ t.st = s.getV x ∧ t.pc.toNat = (s.pc.toNat + 2) % 65536 ∧ t.report = .normal ∧
      Frame (fun p => p = .st ∨ p.isControl) s t) ∧
  (∀ (i : Instr) (s t : State) (b : Byte), exec i s = .next t →
    exec i (s.setSt b) = .next t ∨ exec i (s.setSt b) = .next (t.setSt b)) ∧
  (∀ (i : Instr) (s : State) (b : Byte) (f : Fault), exec i s = .fault f → exec i (s.setSt b) = .fault f)

/-- `Fx1E`: `I` is the sum modulo 65536, VF is not written, no fault (decision D16). -/
def Obligations.AddIWrapsAtSixteenBits : Prop :=
  ∀ (x : RegIx) (s : State),
    ∃ t, exec (.addI x) s = .next t ∧ t.i.toNat = (s.i.toNat + (s.getV x).toNat) % 65536 ∧
      t.pc.toNat = (s.pc.toNat + 2) % 65536 ∧ t.report = .normal ∧ Frame (fun p => p = .addrReg ∨ p.isControl) s t

/-- `Fx29`: `I` is `FONT_BASE + 5 * V[x][3:0]`, for every admissible FONT_BASE (decision D20, log entry 1); the glyph lies below 0x200. -/
def Obligations.LdFPointsAtGlyph : Prop :=
  ∀ (x : RegIx) (s : State),
    ∃ t, exec (.ldF x) s = .next t ∧ t.i.toNat = Config.fontBase.val + 5 * ((s.getV x).toNat % 16) ∧
      t.i.toNat + 5 ≤ 0x200 ∧ t.pc.toNat = (s.pc.toNat + 2) % 65536 ∧ t.report = .normal ∧
      Frame (fun p => p = .addrReg ∨ p.isControl) s t

/-- `Fx33`: hundreds, tens and ones of `V[x]` in the three bytes from `I` on (digit order by decision D19), or a fault when the third
is above 0xFFF; `I` is unchanged and no other byte. -/
def Obligations.LdBStoresDecimalDigits : Prop :=
  ∀ (x : RegIx) (s : State), s.mem.wf = true →
    (s.i.toNat + 2 > 0xFFF → exec (.ldB x) s = .fault .memoryOutOfBounds) ∧
    (s.i.toNat + 2 ≤ 0xFFF → ∃ t, exec (.ldB x) s = .next t ∧
      (memGet t.mem s.i.toNat).toNat = (s.getV x).toNat / 100 ∧
      (memGet t.mem (s.i.toNat + 1)).toNat = (s.getV x).toNat / 10 % 10 ∧
      (memGet t.mem (s.i.toNat + 2)).toNat = (s.getV x).toNat % 10 ∧
      t.pc.toNat = (s.pc.toNat + 2) % 65536 ∧ t.report = .normal ∧
      Frame (fun p => p.inBytes s.i.toNat 3 ∨ p.isControl) s t)

/-- `Fx55`: `V[0]` to `V[x]` in the bytes from `I` on, or a fault when the last is above 0xFFF; `I` is unchanged (decision D18) and no
other byte. -/
def Obligations.StoreRegsWritesBlock : Prop :=
  ∀ (x : RegIx) (s : State), s.mem.wf = true →
    (s.i.toNat + x.val > 0xFFF → exec (.storeRegs x) s = .fault .memoryOutOfBounds) ∧
    (s.i.toNat + x.val ≤ 0xFFF → ∃ t, exec (.storeRegs x) s = .next t ∧
      (∀ k : RegIx, k ≤ x → memGet t.mem (s.i.toNat + k.val) = s.getV k) ∧
      t.pc.toNat = (s.pc.toNat + 2) % 65536 ∧ t.report = .normal ∧
      Frame (fun p => p.inBytes s.i.toNat (x.val + 1) ∨ p.isControl) s t)

/-- `Fx65`: `V[0]` to `V[x]` from the bytes from `I` on, or a fault when the last is above 0xFFF; `I` and the registers above `V[x]` are
unchanged (decision D18), and memory. -/
def Obligations.LoadRegsReadsBlock : Prop :=
  ∀ (x : RegIx) (s : State),
    (s.i.toNat + x.val > 0xFFF → exec (.loadRegs x) s = .fault .memoryOutOfBounds) ∧
    (s.i.toNat + x.val ≤ 0xFFF → ∃ t, exec (.loadRegs x) s = .next t ∧
      (∀ k : RegIx, k ≤ x → t.getV k = memGet s.mem (s.i.toNat + k.val)) ∧
      t.pc.toNat = (s.pc.toNat + 2) % 65536 ∧ t.report = .normal ∧
      Frame (fun p => (∃ k : RegIx, k ≤ x ∧ p = .reg k) ∨ p.isControl) s t)

/-- A byte stored by `Fx33` or `Fx55` is seen by the fetch of the very next Step, whether both bytes of the fetched word were stored, one
of them or none: after every instruction that completes, each byte of the word is what the instruction stored there, else what was there
before (`byteAfter`; R54 is marked derived, decision D29; the stored values by decisions D18 and D19). -/
def Obligations.StoredBytesAreFetchedNext : Prop :=
  ∀ (i : Instr) (s t : State), s.mem.wf = true → exec i s = .next t → t.pc.toNat ≤ 0xFFE →
    fetchWord t = .ok (wordOfBytes (byteAfter i s t.pc.toNat) (byteAfter i s (t.pc.toNat + 1)))

/-! ### Whole-machine promises -/

/-- The only Step that changes a display cell is that of a `Dxyn` (10_state.md section 6). -/
def Obligations.DisplayWrittenOnlyByDraw : Prop :=
  ∀ s t : State, stepOp s = .next t → t.disp ≠ s.disp → ∃ x y n, s.current = some (.drw x y n)

/-- The only Steps that change a byte of memory are those of `Fx33` and `Fx55`, and only within their ranges (20_memory.md section 1). -/
def Obligations.MemoryWrittenOnlyByStores : Prop :=
  ∀ (s t : State) (a : Nat), s.mem.wf = true → stepOp s = .next t → memGet t.mem a ≠ memGet s.mem a →
    (∃ x, s.current = some (.ldB x) ∧ s.i.toNat ≤ a ∧ a ≤ s.i.toNat + 2) ∨
    (∃ x, s.current = some (.storeRegs x) ∧ s.i.toNat ≤ a ∧ a ≤ s.i.toNat + x.val)

/-- `I`, `DT`, `ST` and the stack are changed by a Step only where 10_state.md section 4 says so: `I` by Annn, Fx1E, Fx29; `DT` by Fx15;
`ST` by Fx18; the slots by 2nnn; `SP` by 2nnn and 00EE. -/
def Obligations.SpecialRegistersWrittenOnlyAsListed : Prop :=
  ∀ s t : State, stepOp s = .next t →
    (t.i ≠ s.i → (∃ nnn, s.current = some (.ldI nnn)) ∨ (∃ x, s.current = some (.addI x)) ∨ (∃ x, s.current = some (.ldF x))) ∧
    (t.dt ≠ s.dt → ∃ x, s.current = some (.ldDtVx x)) ∧
    (t.st ≠ s.st → ∃ x, s.current = some (.ldStVx x)) ∧
    (t.stack ≠ s.stack → ∃ nnn, s.current = some (.call nnn)) ∧
    (t.sp ≠ s.sp → s.current = some .ret ∨ ∃ nnn, s.current = some (.call nnn))

/-! ### Host operations -/

/-- Tick decrements both timers by one with a floor of 0, in one operation, and changes nothing else (decision D24). -/
def Obligations.TickDecrementsBothTimers : Prop :=
  ∀ s : State, ∃ t, hostOp .tick s = (.done, t) ∧
    t.dt.toNat = s.dt.toNat - 1 ∧ t.st.toNat = s.st.toNat - 1 ∧ Frame (fun p => p = .dt ∨ p = .st) s t

/-- Between the Steps of `Fx15` the delay timer never rises: no other Step raises it, and no Tick, Load, Reset or readout does, wherever `pc`
stands; the same of `ST` and `Fx18` (60_exceptions.md section 7; one Tick for both timers is decision D24). -/
def Obligations.TimersRiseOnlyWhenLoaded : Prop :=
  ∀ (op : HostOp) (s : State),
    ((∀ keys rnd, op = .step keys rnd → ∀ x, s.current ≠ some (.ldDtVx x)) → (hostOp op s).2.dt.toNat ≤ s.dt.toNat) ∧
    ((∀ keys rnd, op = .step keys rnd → ∀ x, s.current ≠ some (.ldStVx x)) → (hostOp op s).2.st.toNat ≤ s.st.toNat)

/-- Load writes its bytes and nothing else; one that would pass 0xFFF, or that comes after the first Step, is not performed at all
(decision D25, log entry 4). -/
def Obligations.LoadWritesWholeOrNothing : Prop :=
  ∀ (a : Nat) (bytes : List Byte) (s : State), s.mem.wf = true →
    (s.env.loadOpen = false → hostOp (.load a bytes) s = (.loadTooLate, s)) ∧
    (s.env.loadOpen = true → a + bytes.length > 4096 → hostOp (.load a bytes) s = (.loadRefused, s)) ∧
    (s.env.loadOpen = true → a + bytes.length ≤ 4096 → ∃ t, hostOp (.load a bytes) s = (.done, t) ∧
      (∀ k, k < bytes.length → memGet t.mem (a + k) = bytes.getD k 0) ∧ t.mem.wf = true ∧
      Frame (fun p => p.inBytes a bytes.length) s t)

/-- The readouts show the cells and change nothing (10_state.md section 10). -/
def Obligations.ReadoutsChangeNothing : Prop :=
  ∀ s : State,
    hostOp .readDisplay s = (.display s.disp, s) ∧
    ∃ c : Readout, hostOp .readState s = (.cells c, s) ∧ c.v = s.v ∧ c.i = s.i ∧ c.pc = s.pc ∧ c.sp = s.sp ∧
      c.dt = s.dt ∧ c.st = s.st ∧ c.mem = s.mem

/-- The model's step refines the host's operations: a `step` that answers a next state is a Step operation with the KEYS and RND of the
state, then as many Ticks as the host's move says; one that faults is a Step operation that faults (log entry 3). -/
def Obligations.StepRefinesHostOperations : Prop :=
  ∀ s : State,
    (∀ t, step s = .next t → ∃ u n, hostOp (.step s.env.keys s.env.rnd) s = (.stepped t.report, u) ∧
      (hostRun (List.replicate n .tick) u).sameCells t) ∧
    (∀ f, step s = .fault f → ∃ u, hostOp (.step s.env.keys s.env.rnd) s = (.faulted f, u) ∧ s.sameCells u)
end

