-- ==== Sys2Proof/Laws/Decode.lean ====
section
/-! SUPPORT. The fields of an encoded word, and a word from its fields: what the proofs about encodings cite. -/

namespace Sys2Proof

/-! ### The bits of the formats (R62) -/

theorem getLsbD_encNNN (f : Nibble) (a : Addr12) (i : Nat) :
    BitVec.getLsbD (encNNN f a) i = if i < 12 then a.getLsbD i else f.getLsbD (i - 12) :=
  BitVec.getLsbD_append

theorem getLsbD_encXKK (f : Nibble) (x : RegIx) (kk : Byte) (i : Nat) :
    BitVec.getLsbD (encXKK f x kk) i =
      if i < 12 then (if i < 8 then kk.getLsbD i else (BitVec.ofFin x : Nibble).getLsbD (i - 8)) else f.getLsbD (i - 12) := by
  rw [encXKK, ← encNNN, getLsbD_encNNN]
  exact ite_congr rfl (fun _ => BitVec.getLsbD_append) fun _ => rfl

theorem getLsbD_encXYN (f : Nibble) (x y : RegIx) (n : Nibble) (i : Nat) :
    BitVec.getLsbD (encXYN f x y n) i =
      if i < 12 then
        (if i < 8 then (if i < 4 then n.getLsbD i else (BitVec.ofFin y : Nibble).getLsbD (i - 4))
         else (BitVec.ofFin x : Nibble).getLsbD (i - 8))
      else f.getLsbD (i - 12) := by
  rw [encXYN, getLsbD_encXKK]
  exact ite_congr rfl (fun _ => ite_congr rfl (fun _ => BitVec.getLsbD_append) fun _ => rfl) fun _ => rfl

theorem getLsbD_wordOfBytes (hi lo : Byte) (i : Nat) :
    BitVec.getLsbD (wordOfBytes hi lo) i = if i < 8 then lo.getLsbD i else hi.getLsbD (i - 8) :=
  BitVec.getLsbD_append

/-! ### The fields of the formats (R61, R62) -/

@[simp] theorem family_encNNN (f : Nibble) (a : Addr12) : Word.family (encNNN f a) = f := by
  apply BitVec.eq_of_getLsbD_eq
  intro i hi
  have h : ¬ 12 + i < 12 := by omega
  simp only [Word.family, BitVec.getLsbD_extractLsb', hi, decide_true, Bool.true_and, getLsbD_encNNN, h, if_false,
    Nat.add_sub_cancel_left]

@[simp] theorem nnnField_encNNN (f : Nibble) (a : Addr12) : Word.nnnField (encNNN f a) = a := by
  apply BitVec.eq_of_getLsbD_eq
  intro i hi
  simp only [Word.nnnField, BitVec.getLsbD_extractLsb', hi, decide_true, Bool.true_and, getLsbD_encNNN, Nat.zero_add,
    if_true]

@[simp] theorem family_encXKK (f : Nibble) (x : RegIx) (kk : Byte) : Word.family (encXKK f x kk) = f := family_encNNN f _

@[simp] theorem kkField_encXKK (f : Nibble) (x : RegIx) (kk : Byte) : Word.kkField (encXKK f x kk) = kk := by
  apply BitVec.eq_of_getLsbD_eq
  intro i hi
  have h : i < 12 := by omega
  simp only [Word.kkField, BitVec.getLsbD_extractLsb', hi, decide_true, Bool.true_and, getLsbD_encXKK, Nat.zero_add, h,
    if_true]

@[simp] theorem xField_encXKK (f : Nibble) (x : RegIx) (kk : Byte) : Word.xField (encXKK f x kk) = x := by
  have h : BitVec.extractLsb' 8 4 (encXKK f x kk) = BitVec.ofFin x := by
    apply BitVec.eq_of_getLsbD_eq
    intro i hi
    have h1 : 8 + i < 12 := by omega
    have h2 : ¬ 8 + i < 8 := by omega
    simp only [BitVec.getLsbD_extractLsb', hi, decide_true, Bool.true_and, getLsbD_encXKK, h1, h2, if_true, if_false,
      Nat.add_sub_cancel_left]
  rw [Word.xField, h]

@[simp] theorem family_encXYN (f : Nibble) (x y : RegIx) (n : Nibble) : Word.family (encXYN f x y n) = f :=
  family_encXKK f x _

@[simp] theorem xField_encXYN (f : Nibble) (x y : RegIx) (n : Nibble) : Word.xField (encXYN f x y n) = x :=
  xField_encXKK f x _

@[simp] theorem yField_encXYN (f : Nibble) (x y : RegIx) (n : Nibble) : Word.yField (encXYN f x y n) = y := by
  have h : BitVec.extractLsb' 4 4 (encXYN f x y n) = BitVec.ofFin y := by
    apply BitVec.eq_of_getLsbD_eq
    intro i hi
    have h1 : 4 + i < 12 := by omega
    have h2 : 4 + i < 8 := by omega
    have h3 : ¬ 4 + i < 4 := by omega
    simp only [BitVec.getLsbD_extractLsb', hi, decide_true, Bool.true_and, getLsbD_encXYN, h1, h2, h3, if_true, if_false,
      Nat.add_sub_cancel_left]
  rw [Word.yField, h]

@[simp] theorem nField_encXYN (f : Nibble) (x y : RegIx) (n : Nibble) : Word.nField (encXYN f x y n) = n := by
  apply BitVec.eq_of_getLsbD_eq
  intro i hi
  have h1 : i < 12 := by omega
  have h2 : i < 8 := by omega
  simp only [Word.nField, BitVec.getLsbD_extractLsb', hi, decide_true, Bool.true_and, getLsbD_encXYN, Nat.zero_add, h1, h2,
    if_true]

/-! ### A word from its bytes and its fields -/

@[simp] theorem wordOfBytes_hi_lo (w : Word) : wordOfBytes (Word.hiByte w) (Word.loByte w) = w := by
  apply BitVec.eq_of_getLsbD_eq
  intro i hi
  rw [getLsbD_wordOfBytes]
  split
  next h => simp only [Word.loByte, BitVec.getLsbD_extractLsb', h, decide_true, Bool.true_and, Nat.zero_add]
  next h =>
    have h1 : i - 8 < 8 := by omega
    have h2 : 8 + (i - 8) = i := by omega
    simp only [Word.hiByte, BitVec.getLsbD_extractLsb', h1, h2, decide_true, Bool.true_and]

@[simp] theorem hiByte_wordOfBytes (hi lo : Byte) : Word.hiByte (wordOfBytes hi lo) = hi := by
  apply BitVec.eq_of_getLsbD_eq
  intro i h
  have h1 : ¬ 8 + i < 8 := by omega
  simp only [Word.hiByte, BitVec.getLsbD_extractLsb', h, decide_true, Bool.true_and, getLsbD_wordOfBytes, h1, if_false,
    Nat.add_sub_cancel_left]

@[simp] theorem loByte_wordOfBytes (hi lo : Byte) : Word.loByte (wordOfBytes hi lo) = lo := by
  apply BitVec.eq_of_getLsbD_eq
  intro i h
  simp only [Word.loByte, BitVec.getLsbD_extractLsb', h, decide_true, Bool.true_and, getLsbD_wordOfBytes, Nat.zero_add,
    if_true]

@[simp] theorem decodeBytes_hi_lo (w : Word) : decodeBytes (Word.hiByte w) (Word.loByte w) = decodeWord w := by
  rw [decodeBytes, wordOfBytes_hi_lo]

theorem encNNN_fields (w : Word) : encNNN (Word.family w) (Word.nnnField w) = w := by
  apply BitVec.eq_of_getLsbD_eq
  intro i hi
  rw [getLsbD_encNNN]
  split
  next h => simp only [Word.nnnField, BitVec.getLsbD_extractLsb', h, decide_true, Bool.true_and, Nat.zero_add]
  next h =>
    have h1 : i - 12 < 4 := by omega
    have h2 : 12 + (i - 12) = i := by omega
    simp only [Word.family, BitVec.getLsbD_extractLsb', h1, h2, decide_true, Bool.true_and]

theorem encXYN_fields (w : Word) : encXYN (Word.family w) (Word.xField w) (Word.yField w) (Word.nField w) = w := by
  apply BitVec.eq_of_getLsbD_eq
  intro i hi
  have e4 : 4 + (i - 4) = i ∨ i < 4 := by omega
  have e8 : 8 + (i - 8) = i ∨ i < 8 := by omega
  have e12 : 12 + (i - 12) = i ∨ i < 12 := by omega
  have h4 : i - 4 < 4 ∨ 8 ≤ i := by omega
  have h8 : i - 8 < 4 ∨ 12 ≤ i := by omega
  have h12 : i - 12 < 4 := by omega
  rw [getLsbD_encXYN]
  simp only [Word.family, Word.xField, Word.yField, Word.nField, BitVec.ofFin_toFin, BitVec.getLsbD_extractLsb']
  split
  next a =>
    split
    next b =>
      split
      next c => simp [c]
      next c => rw [e4.resolve_right c]; simp [h4.resolve_right (by omega)]
    next b => rw [e8.resolve_right b]; simp [h8.resolve_right (by omega)]
  next a => rw [e12.resolve_right a]; simp [h12]

theorem encXKK_fields (w : Word) : encXKK (Word.family w) (Word.xField w) (Word.kkField w) = w := by
  apply BitVec.eq_of_getLsbD_eq
  intro i hi
  have e8 : 8 + (i - 8) = i ∨ i < 8 := by omega
  have e12 : 12 + (i - 12) = i ∨ i < 12 := by omega
  have h8 : i - 8 < 4 ∨ 12 ≤ i := by omega
  have h12 : i - 12 < 4 := by omega
  rw [getLsbD_encXKK]
  simp only [Word.family, Word.xField, Word.kkField, BitVec.ofFin_toFin, BitVec.getLsbD_extractLsb']
  split
  next a =>
    split
    next b => simp [b]
    next b => rw [e8.resolve_right b]; simp [h8.resolve_right (by omega)]
  next a => rw [e12.resolve_right a]; simp [h12]

end Sys2Proof
end

