-- ==== Sys2Proof/Laws/Memory.lean ====
section
/-! SUPPORT. The laws of memory: a read after a write, the canonical form kept by every operation, equal memories are equal lists. -/

namespace Sys2Proof

theorem Memory.wfFrom_cons (lo a : Nat) (b : Byte) (rest : Memory) :
    Memory.wfFrom lo ((a, b) :: rest) = true ↔
      lo ≤ a ∧ a < memSize ∧ b ≠ 0 ∧ Memory.wfFrom (a + 1) rest = true := by
  simp only [Memory.wfFrom, Bool.and_eq_true, decide_eq_true_eq, bne_iff_ne, and_assoc]

theorem Memory.wfFrom_mono {m : Memory} {a b : Nat} (h : m.wfFrom b = true) (hab : a ≤ b) : m.wfFrom a = true := by
  cases m with
  | nil => rfl
  | cons e rest =>
    rw [Memory.wfFrom_cons] at h ⊢
    exact ⟨by omega, h.2⟩

end Sys2Proof

namespace Sys2Proof.Machine

/-! ### A read after a write -/

@[simp] theorem memGet_nil (k : Nat) : memGet [] k = 0 := rfl

theorem memGet_cons (c : Nat) (b : Byte) (rest : Memory) (k : Nat) :
    memGet ((c, b) :: rest) k = if c = k then b else memGet rest k := rfl

theorem memGet_of_lt {m : Memory} {lo k : Nat} (h : m.wfFrom lo = true) (hk : k < lo) : memGet m k = 0 := by
  induction m generalizing lo with
  | nil => rfl
  | cons e rest ih =>
    rw [Memory.wfFrom_cons] at h
    rw [memGet_cons, if_neg (by omega)]
    exact ih h.2.2.2 (by omega)

/-- Reading an address after a write to memory in canonical form: the byte written there, elsewhere what was there. -/
theorem memGet_memSetFrom {m : Memory} {lo : Nat} (h : m.wfFrom lo = true) (k a : Nat) (v : Byte) :
    memGet (memSet m k v) a = if a = k then v else memGet m a := by
  induction m generalizing lo with
  | nil =>
    simp only [memSet]
    split
    next hv => simp [hv]
    next => simp only [memGet_cons, memGet_nil, eq_comm]
  | cons e rest ih =>
    obtain ⟨c, b⟩ := e
    rw [Memory.wfFrom_cons] at h
    have hrest : ∀ j, j ≤ c → memGet rest j = 0 := fun j hj => memGet_of_lt h.2.2.2 (by omega)
    simp only [memSet]
    split
    next h1 =>
      split
      next hv =>
        split
        next ha => rw [memGet_cons, if_neg (by omega), hrest a (by omega), hv]
        next => rfl
      next => simp only [memGet_cons, eq_comm]
    next h1 =>
      split
      next h2 =>
        subst h2
        split
        next hv =>
          split
          next ha => rw [ha, hrest k (Nat.le_refl k), hv]
          next ha => rw [memGet_cons, if_neg (fun e => ha e.symm)]
        next =>
          simp only [memGet_cons]
          split
          next ha => rw [if_pos ha.symm]
          next ha => rw [if_neg (fun e => ha e.symm)]
      next h2 =>
        simp only [memGet_cons, ih h.2.2.2]
        split
        next hc => rw [if_neg (by omega)]
        next => rfl

/-- Reading an address after a write. -/
theorem memGet_memSet {m : Memory} (h : m.wf = true) (k a : Nat) (v : Byte) :
    memGet (memSet m k v) a = if a = k then v else memGet m a := memGet_memSetFrom h k a v

/-! ### The canonical form -/

theorem memSet_wfFrom {m : Memory} {lo k : Nat} (h : m.wfFrom lo = true) (hlo : lo ≤ k) (hk : k < memSize) (v : Byte) :
    (memSet m k v).wfFrom lo = true := by
  induction m generalizing lo with
  | nil =>
    simp only [memSet]
    split
    next => rfl
    next hv => exact (Memory.wfFrom_cons ..).2 ⟨hlo, hk, hv, rfl⟩
  | cons e rest ih =>
    obtain ⟨c, b⟩ := e
    have hw := (Memory.wfFrom_cons ..).1 h
    simp only [memSet]
    split
    next h1 =>
      split
      next => exact h
      next hv =>
        exact (Memory.wfFrom_cons ..).2 ⟨hlo, hk, hv, (Memory.wfFrom_cons ..).2 ⟨h1, hw.2⟩⟩
    next h1 =>
      split
      next h2 =>
        subst h2
        split
        next => exact Memory.wfFrom_mono hw.2.2.2 (by omega)
        next hv => exact (Memory.wfFrom_cons ..).2 ⟨hlo, hk, hv, hw.2.2.2⟩
      next h2 => exact (Memory.wfFrom_cons ..).2 ⟨hw.1, hw.2.1, hw.2.2.1, ih hw.2.2.2 (by omega)⟩

/-- A write to an address keeps the canonical form. -/
theorem memSet_wf {m : Memory} {k : Nat} (h : m.wf = true) (hk : k < memSize) (v : Byte) : (memSet m k v).wf = true :=
  memSet_wfFrom h (Nat.zero_le k) hk v

/-- A write of a range of addresses keeps the canonical form. -/
theorem memSetList_wf {m : Memory} {a : Nat} (bytes : List Byte) (h : m.wf = true) (hb : a + bytes.length ≤ memSize) :
    (memSetList m a bytes).wf = true := by
  induction bytes generalizing m a with
  | nil => exact h
  | cons b rest ih =>
    simp only [List.length_cons] at hb
    exact ih (memSet_wf h (by omega) b) (by omega)

/-- Reading an address after the write of a range: the byte written there, elsewhere what was there. -/
theorem memGet_memSetList {m : Memory} {a : Nat} (bytes : List Byte) (h : m.wf = true) (hb : a + bytes.length ≤ memSize)
    (k : Nat) :
    memGet (memSetList m a bytes) k =
      if a ≤ k ∧ k < a + bytes.length then bytes.getD (k - a) 0 else memGet m k := by
  induction bytes generalizing m a with
  | nil =>
    have : ¬(a ≤ k ∧ k < a) := by omega
    simp [memSetList, this]
  | cons b rest ih =>
    simp only [List.length_cons] at hb
    rw [memSetList, ih (memSet_wf h (by omega) b) (by omega), memGet_memSet h]
    by_cases h1 : k = a
    · subst h1
      have h2 : ¬(k + 1 ≤ k ∧ k < k + 1 + rest.length) := by omega
      simp [h2]
    · by_cases h2 : a + 1 ≤ k ∧ k < a + 1 + rest.length
      · have h3 : a ≤ k ∧ k < a + (rest.length + 1) := by omega
        have h4 : k - a = (k - (a + 1)) + 1 := by omega
        simp only [List.length_cons, if_pos h2, if_pos h3, h4, List.getD_cons_succ]
      · have h3 : ¬(a ≤ k ∧ k < a + (rest.length + 1)) := by omega
        simp only [List.length_cons, if_neg h2, if_neg h3, if_neg h1]

/-- An address above 0xFFF has no byte. -/
theorem memGet_of_ge {m : Memory} (h : m.wf = true) {k : Nat} (hk : memSize ≤ k) : memGet m k = 0 := go h hk
where
  go {m : Memory} {lo k : Nat} (h : m.wfFrom lo = true) (hk : memSize ≤ k) : memGet m k = 0 := by
    induction m generalizing lo with
    | nil => rfl
    | cons e rest ih =>
      rw [Memory.wfFrom_cons] at h
      rw [memGet_cons, if_neg (by omega)]
      exact ih h.2.2.2

/-- Memories in canonical form with equal bytes are equal lists. -/
theorem Memory.ext_of_wf {m n : Memory} (hm : m.wf = true) (hn : n.wf = true) (h : ∀ k, memGet m k = memGet n k) : m = n :=
  go hm hn h
where
  head_le {a c : Nat} {b d : Byte} {rest rest' : Memory} {lo : Nat} (hm : Memory.wfFrom lo ((a, b) :: rest) = true)
      (hn : Memory.wfFrom lo ((c, d) :: rest') = true) (h : ∀ k, memGet ((a, b) :: rest) k = memGet ((c, d) :: rest') k) :
      c ≤ a := by
    refine Nat.le_of_not_lt fun hlt => ?_
    have hn' := (Memory.wfFrom_cons ..).1 hn
    have h0 : memGet ((c, d) :: rest') a = 0 :=
      memGet_of_lt (lo := c) ((Memory.wfFrom_cons ..).2 ⟨Nat.le_refl c, hn'.2⟩) (by omega)
    have ha := h a
    rw [h0, memGet_cons, if_pos rfl] at ha
    exact ((Memory.wfFrom_cons ..).1 hm).2.2.1 ha
  go {m n : Memory} {lo : Nat} (hm : m.wfFrom lo = true) (hn : n.wfFrom lo = true) (h : ∀ k, memGet m k = memGet n k) :
      m = n := by
    induction m generalizing n lo with
    | nil =>
      cases n with
      | nil => rfl
      | cons f rest' =>
        have hf := h f.1
        rw [memGet_nil, memGet_cons, if_pos rfl] at hf
        exact absurd hf.symm ((Memory.wfFrom_cons ..).1 hn).2.2.1
    | cons e rest ih =>
      cases n with
      | nil =>
        have he := h e.1
        rw [memGet_nil, memGet_cons, if_pos rfl] at he
        exact absurd he ((Memory.wfFrom_cons ..).1 hm).2.2.1
      | cons f rest' =>
        obtain ⟨a, b⟩ := e
        obtain ⟨c, d⟩ := f
        have hac : a = c := Nat.le_antisymm (head_le hn hm fun k => (h k).symm) (head_le hm hn h)
        subst hac
        have hm' := ((Memory.wfFrom_cons ..).1 hm).2.2.2
        have hn' := ((Memory.wfFrom_cons ..).1 hn).2.2.2
        have hbd : b = d := by simpa [memGet_cons] using h a
        have hr : rest = rest' := by
          refine ih hm' hn' fun k => ?_
          by_cases hk : a = k
          · rw [memGet_of_lt hm' (by omega), memGet_of_lt hn' (by omega)]
          · simpa [memGet_cons, hk] using h k
        rw [hbd, hr]

/-! ### The checked accesses -/

/-- A non-empty range is in bounds exactly when its last address is at most 0xFFF; an empty one always is. -/
theorem inBounds_iff (a n : Nat) : inBounds a n = true ↔ (n = 0 ∨ a + n ≤ 0x1000) := by
  simp only [inBounds, Bool.or_eq_true, beq_iff_eq, decide_eq_true_eq]
  omega

theorem inBounds_eq_false_iff (a n : Nat) : inBounds a n = false ↔ (n ≠ 0 ∧ 0x1000 < a + n) := by
  rw [← Bool.not_eq_true, inBounds_iff]
  omega

@[simp] theorem memGetList_length (m : Memory) (a n : Nat) : (memGetList m a n).length = n := by
  induction n generalizing a with
  | zero => rfl
  | succ n ih => simp [memGetList, ih]

/-- The k-th byte of a block is the byte at its address. -/
theorem memGetList_getD (m : Memory) (a n k : Nat) (h : k < n) : (memGetList m a n).getD k 0 = memGet m (a + k) := by
  induction n generalizing a k with
  | zero => omega
  | succ n ih =>
    cases k with
    | zero => simp [memGetList]
    | succ k =>
      simp only [memGetList, List.getD_cons_succ, ih (a + 1) k (by omega)]
      congr 1
      omega

/-- All a checked read can do. -/
theorem memRead_cases (m : Memory) (a n : Nat) :
    ((n = 0 ∨ a + n ≤ 0x1000) ∧ memRead m a n = .ok (memGetList m a n)) ∨
      ((n ≠ 0 ∧ 0x1000 < a + n) ∧ memRead m a n = .error .memoryOutOfBounds) := by
  by_cases h : inBounds a n = true
  · exact .inl ⟨(inBounds_iff a n).1 h, by simp [memRead, h]⟩
  · simp only [Bool.not_eq_true] at h
    exact .inr ⟨(inBounds_eq_false_iff a n).1 h, by simp [memRead, h]⟩

/-- All a checked write can do: the whole range, or nothing. -/
theorem memWrite_cases (m : Memory) (a : Nat) (bytes : List Byte) :
    ((bytes.length = 0 ∨ a + bytes.length ≤ 0x1000) ∧ memWrite m a bytes = .ok (memSetList m a bytes)) ∨
      ((bytes.length ≠ 0 ∧ 0x1000 < a + bytes.length) ∧ memWrite m a bytes = .error .memoryOutOfBounds) := by
  by_cases h : inBounds a bytes.length = true
  · exact .inl ⟨(inBounds_iff a bytes.length).1 h, by simp [memWrite, h]⟩
  · simp only [Bool.not_eq_true] at h
    exact .inr ⟨(inBounds_eq_false_iff a bytes.length).1 h, by simp [memWrite, h]⟩

/-- Whatever a checked write answers, memory stays in canonical form. -/
theorem memWrite_wf {m n : Memory} {a : Nat} {bytes : List Byte} (h : m.wf = true) (hw : memWrite m a bytes = .ok n) :
    n.wf = true := by
  rcases memWrite_cases m a bytes with ⟨hb, he⟩ | ⟨_, he⟩
  · rw [he] at hw
    cases hw
    rcases hb with h0 | hb
    · rw [List.length_eq_zero_iff] at h0
      subst h0
      exact h
    · exact memSetList_wf bytes h hb
  · rw [he] at hw
    cases hw

end Sys2Proof.Machine
end

