-- ==== Sys2Proof/Laws/State.lean ====
section
/-! SUPPORT. One lemma per field per update of the state, so that no proof unfolds a record update; then reading a register after a write. -/

namespace Sys2Proof.Machine

/-! #### `setV` -/

@[simp] theorem State.setV_mem (s : State) (x : RegIx) (b : Byte) : (s.setV x b).mem = s.mem := rfl
@[simp] theorem State.setV_v (s : State) (x : RegIx) (b : Byte) : (s.setV x b).v = s.v.set x.val b := rfl
@[simp] theorem State.setV_i (s : State) (x : RegIx) (b : Byte) : (s.setV x b).i = s.i := rfl
@[simp] theorem State.setV_pc (s : State) (x : RegIx) (b : Byte) : (s.setV x b).pc = s.pc := rfl
@[simp] theorem State.setV_stack (s : State) (x : RegIx) (b : Byte) : (s.setV x b).stack = s.stack := rfl
@[simp] theorem State.setV_sp (s : State) (x : RegIx) (b : Byte) : (s.setV x b).sp = s.sp := rfl
@[simp] theorem State.setV_disp (s : State) (x : RegIx) (b : Byte) : (s.setV x b).disp = s.disp := rfl
@[simp] theorem State.setV_dt (s : State) (x : RegIx) (b : Byte) : (s.setV x b).dt = s.dt := rfl
@[simp] theorem State.setV_st (s : State) (x : RegIx) (b : Byte) : (s.setV x b).st = s.st := rfl
@[simp] theorem State.setV_report (s : State) (x : RegIx) (b : Byte) : (s.setV x b).report = s.report := rfl
@[simp] theorem State.setV_env (s : State) (x : RegIx) (b : Byte) : (s.setV x b).env = s.env := rfl

/-! #### `setI` -/

@[simp] theorem State.setI_mem (s : State) (w : Word) : (s.setI w).mem = s.mem := rfl
@[simp] theorem State.setI_v (s : State) (w : Word) : (s.setI w).v = s.v := rfl
@[simp] theorem State.setI_i (s : State) (w : Word) : (s.setI w).i = w := rfl
@[simp] theorem State.setI_pc (s : State) (w : Word) : (s.setI w).pc = s.pc := rfl
@[simp] theorem State.setI_stack (s : State) (w : Word) : (s.setI w).stack = s.stack := rfl
@[simp] theorem State.setI_sp (s : State) (w : Word) : (s.setI w).sp = s.sp := rfl
@[simp] theorem State.setI_disp (s : State) (w : Word) : (s.setI w).disp = s.disp := rfl
@[simp] theorem State.setI_dt (s : State) (w : Word) : (s.setI w).dt = s.dt := rfl
@[simp] theorem State.setI_st (s : State) (w : Word) : (s.setI w).st = s.st := rfl
@[simp] theorem State.setI_report (s : State) (w : Word) : (s.setI w).report = s.report := rfl
@[simp] theorem State.setI_env (s : State) (w : Word) : (s.setI w).env = s.env := rfl

/-! #### `setDt` -/

@[simp] theorem State.setDt_mem (s : State) (b : Byte) : (s.setDt b).mem = s.mem := rfl
@[simp] theorem State.setDt_v (s : State) (b : Byte) : (s.setDt b).v = s.v := rfl
@[simp] theorem State.setDt_i (s : State) (b : Byte) : (s.setDt b).i = s.i := rfl
@[simp] theorem State.setDt_pc (s : State) (b : Byte) : (s.setDt b).pc = s.pc := rfl
@[simp] theorem State.setDt_stack (s : State) (b : Byte) : (s.setDt b).stack = s.stack := rfl
@[simp] theorem State.setDt_sp (s : State) (b : Byte) : (s.setDt b).sp = s.sp := rfl
@[simp] theorem State.setDt_disp (s : State) (b : Byte) : (s.setDt b).disp = s.disp := rfl
@[simp] theorem State.setDt_dt (s : State) (b : Byte) : (s.setDt b).dt = b := rfl
@[simp] theorem State.setDt_st (s : State) (b : Byte) : (s.setDt b).st = s.st := rfl
@[simp] theorem State.setDt_report (s : State) (b : Byte) : (s.setDt b).report = s.report := rfl
@[simp] theorem State.setDt_env (s : State) (b : Byte) : (s.setDt b).env = s.env := rfl

/-! #### `setSt` -/

@[simp] theorem State.setSt_mem (s : State) (b : Byte) : (s.setSt b).mem = s.mem := rfl
@[simp] theorem State.setSt_v (s : State) (b : Byte) : (s.setSt b).v = s.v := rfl
@[simp] theorem State.setSt_i (s : State) (b : Byte) : (s.setSt b).i = s.i := rfl
@[simp] theorem State.setSt_pc (s : State) (b : Byte) : (s.setSt b).pc = s.pc := rfl
@[simp] theorem State.setSt_stack (s : State) (b : Byte) : (s.setSt b).stack = s.stack := rfl
@[simp] theorem State.setSt_sp (s : State) (b : Byte) : (s.setSt b).sp = s.sp := rfl
@[simp] theorem State.setSt_disp (s : State) (b : Byte) : (s.setSt b).disp = s.disp := rfl
@[simp] theorem State.setSt_dt (s : State) (b : Byte) : (s.setSt b).dt = s.dt := rfl
@[simp] theorem State.setSt_st (s : State) (b : Byte) : (s.setSt b).st = b := rfl
@[simp] theorem State.setSt_report (s : State) (b : Byte) : (s.setSt b).report = s.report := rfl
@[simp] theorem State.setSt_env (s : State) (b : Byte) : (s.setSt b).env = s.env := rfl

/-! #### `setMem` -/

@[simp] theorem State.setMem_mem (s : State) (m : Memory) : (s.setMem m).mem = m := rfl
@[simp] theorem State.setMem_v (s : State) (m : Memory) : (s.setMem m).v = s.v := rfl
@[simp] theorem State.setMem_i (s : State) (m : Memory) : (s.setMem m).i = s.i := rfl
@[simp] theorem State.setMem_pc (s : State) (m : Memory) : (s.setMem m).pc = s.pc := rfl
@[simp] theorem State.setMem_stack (s : State) (m : Memory) : (s.setMem m).stack = s.stack := rfl
@[simp] theorem State.setMem_sp (s : State) (m : Memory) : (s.setMem m).sp = s.sp := rfl
@[simp] theorem State.setMem_disp (s : State) (m : Memory) : (s.setMem m).disp = s.disp := rfl
@[simp] theorem State.setMem_dt (s : State) (m : Memory) : (s.setMem m).dt = s.dt := rfl
@[simp] theorem State.setMem_st (s : State) (m : Memory) : (s.setMem m).st = s.st := rfl
@[simp] theorem State.setMem_report (s : State) (m : Memory) : (s.setMem m).report = s.report := rfl
@[simp] theorem State.setMem_env (s : State) (m : Memory) : (s.setMem m).env = s.env := rfl

/-! #### `setDisp` -/

@[simp] theorem State.setDisp_mem (s : State) (d : Display) : (s.setDisp d).mem = s.mem := rfl
@[simp] theorem State.setDisp_v (s : State) (d : Display) : (s.setDisp d).v = s.v := rfl
@[simp] theorem State.setDisp_i (s : State) (d : Display) : (s.setDisp d).i = s.i := rfl
@[simp] theorem State.setDisp_pc (s : State) (d : Display) : (s.setDisp d).pc = s.pc := rfl
@[simp] theorem State.setDisp_stack (s : State) (d : Display) : (s.setDisp d).stack = s.stack := rfl
@[simp] theorem State.setDisp_sp (s : State) (d : Display) : (s.setDisp d).sp = s.sp := rfl
@[simp] theorem State.setDisp_disp (s : State) (d : Display) : (s.setDisp d).disp = d := rfl
@[simp] theorem State.setDisp_dt (s : State) (d : Display) : (s.setDisp d).dt = s.dt := rfl
@[simp] theorem State.setDisp_st (s : State) (d : Display) : (s.setDisp d).st = s.st := rfl
@[simp] theorem State.setDisp_report (s : State) (d : Display) : (s.setDisp d).report = s.report := rfl
@[simp] theorem State.setDisp_env (s : State) (d : Display) : (s.setDisp d).env = s.env := rfl

/-! #### `goto` -/

@[simp] theorem State.goto_mem (s : State) (w : Word) : (s.goto w).mem = s.mem := rfl
@[simp] theorem State.goto_v (s : State) (w : Word) : (s.goto w).v = s.v := rfl
@[simp] theorem State.goto_i (s : State) (w : Word) : (s.goto w).i = s.i := rfl
@[simp] theorem State.goto_pc (s : State) (w : Word) : (s.goto w).pc = w := rfl
@[simp] theorem State.goto_stack (s : State) (w : Word) : (s.goto w).stack = s.stack := rfl
@[simp] theorem State.goto_sp (s : State) (w : Word) : (s.goto w).sp = s.sp := rfl
@[simp] theorem State.goto_disp (s : State) (w : Word) : (s.goto w).disp = s.disp := rfl
@[simp] theorem State.goto_dt (s : State) (w : Word) : (s.goto w).dt = s.dt := rfl
@[simp] theorem State.goto_st (s : State) (w : Word) : (s.goto w).st = s.st := rfl
@[simp] theorem State.goto_report (s : State) (w : Word) : (s.goto w).report = .normal := rfl
@[simp] theorem State.goto_env (s : State) (w : Word) : (s.goto w).env = s.env := rfl

/-! #### `advance` -/

@[simp] theorem State.advance_mem (s : State) : (s.advance).mem = s.mem := rfl
@[simp] theorem State.advance_v (s : State) : (s.advance).v = s.v := rfl
@[simp] theorem State.advance_i (s : State) : (s.advance).i = s.i := rfl
@[simp] theorem State.advance_pc (s : State) : (s.advance).pc = s.pc + 2 := rfl
@[simp] theorem State.advance_stack (s : State) : (s.advance).stack = s.stack := rfl
@[simp] theorem State.advance_sp (s : State) : (s.advance).sp = s.sp := rfl
@[simp] theorem State.advance_disp (s : State) : (s.advance).disp = s.disp := rfl
@[simp] theorem State.advance_dt (s : State) : (s.advance).dt = s.dt := rfl
@[simp] theorem State.advance_st (s : State) : (s.advance).st = s.st := rfl
@[simp] theorem State.advance_report (s : State) : (s.advance).report = .normal := rfl
@[simp] theorem State.advance_env (s : State) : (s.advance).env = s.env := rfl

/-! #### `skip` -/

@[simp] theorem State.skip_mem (s : State) : (s.skip).mem = s.mem := rfl
@[simp] theorem State.skip_v (s : State) : (s.skip).v = s.v := rfl
@[simp] theorem State.skip_i (s : State) : (s.skip).i = s.i := rfl
@[simp] theorem State.skip_pc (s : State) : (s.skip).pc = s.pc + 4 := rfl
@[simp] theorem State.skip_stack (s : State) : (s.skip).stack = s.stack := rfl
@[simp] theorem State.skip_sp (s : State) : (s.skip).sp = s.sp := rfl
@[simp] theorem State.skip_disp (s : State) : (s.skip).disp = s.disp := rfl
@[simp] theorem State.skip_dt (s : State) : (s.skip).dt = s.dt := rfl
@[simp] theorem State.skip_st (s : State) : (s.skip).st = s.st := rfl
@[simp] theorem State.skip_report (s : State) : (s.skip).report = .normal := rfl
@[simp] theorem State.skip_env (s : State) : (s.skip).env = s.env := rfl

/-! #### `await` -/

@[simp] theorem State.await_mem (s : State) : (s.await).mem = s.mem := rfl
@[simp] theorem State.await_v (s : State) : (s.await).v = s.v := rfl
@[simp] theorem State.await_i (s : State) : (s.await).i = s.i := rfl
@[simp] theorem State.await_pc (s : State) : (s.await).pc = s.pc := rfl
@[simp] theorem State.await_stack (s : State) : (s.await).stack = s.stack := rfl
@[simp] theorem State.await_sp (s : State) : (s.await).sp = s.sp := rfl
@[simp] theorem State.await_disp (s : State) : (s.await).disp = s.disp := rfl
@[simp] theorem State.await_dt (s : State) : (s.await).dt = s.dt := rfl
@[simp] theorem State.await_st (s : State) : (s.await).st = s.st := rfl
@[simp] theorem State.await_report (s : State) : (s.await).report = .awaitingKey := rfl
@[simp] theorem State.await_env (s : State) : (s.await).env = s.env := rfl

/-! #### `withInputs` -/

@[simp] theorem State.withInputs_mem (s : State) (k : BitVec 16) (r : Byte) : (s.withInputs k r).mem = s.mem := rfl
@[simp] theorem State.withInputs_v (s : State) (k : BitVec 16) (r : Byte) : (s.withInputs k r).v = s.v := rfl
@[simp] theorem State.withInputs_i (s : State) (k : BitVec 16) (r : Byte) : (s.withInputs k r).i = s.i := rfl
@[simp] theorem State.withInputs_pc (s : State) (k : BitVec 16) (r : Byte) : (s.withInputs k r).pc = s.pc := rfl
@[simp] theorem State.withInputs_stack (s : State) (k : BitVec 16) (r : Byte) : (s.withInputs k r).stack = s.stack := rfl
@[simp] theorem State.withInputs_sp (s : State) (k : BitVec 16) (r : Byte) : (s.withInputs k r).sp = s.sp := rfl
@[simp] theorem State.withInputs_disp (s : State) (k : BitVec 16) (r : Byte) : (s.withInputs k r).disp = s.disp := rfl
@[simp] theorem State.withInputs_dt (s : State) (k : BitVec 16) (r : Byte) : (s.withInputs k r).dt = s.dt := rfl
@[simp] theorem State.withInputs_st (s : State) (k : BitVec 16) (r : Byte) : (s.withInputs k r).st = s.st := rfl
@[simp] theorem State.withInputs_report (s : State) (k : BitVec 16) (r : Byte) : (s.withInputs k r).report = s.report := rfl
@[simp] theorem State.withInputs_env (s : State) (k : BitVec 16) (r : Byte) : (s.withInputs k r).env = { s.env with keys := k, rnd := r } := rfl

/-! #### `closeLoad` -/

@[simp] theorem State.closeLoad_mem (s : State) : (s.closeLoad).mem = s.mem := rfl
@[simp] theorem State.closeLoad_v (s : State) : (s.closeLoad).v = s.v := rfl
@[simp] theorem State.closeLoad_i (s : State) : (s.closeLoad).i = s.i := rfl
@[simp] theorem State.closeLoad_pc (s : State) : (s.closeLoad).pc = s.pc := rfl
@[simp] theorem State.closeLoad_stack (s : State) : (s.closeLoad).stack = s.stack := rfl
@[simp] theorem State.closeLoad_sp (s : State) : (s.closeLoad).sp = s.sp := rfl
@[simp] theorem State.closeLoad_disp (s : State) : (s.closeLoad).disp = s.disp := rfl
@[simp] theorem State.closeLoad_dt (s : State) : (s.closeLoad).dt = s.dt := rfl
@[simp] theorem State.closeLoad_st (s : State) : (s.closeLoad).st = s.st := rfl
@[simp] theorem State.closeLoad_report (s : State) : (s.closeLoad).report = s.report := rfl
@[simp] theorem State.closeLoad_env (s : State) : (s.closeLoad).env = { s.env with loadOpen := false } := rfl

/-! #### `tick` -/

@[simp] theorem tick_mem (s : State) : (tick s).mem = s.mem := rfl
@[simp] theorem tick_v (s : State) : (tick s).v = s.v := rfl
@[simp] theorem tick_i (s : State) : (tick s).i = s.i := rfl
@[simp] theorem tick_pc (s : State) : (tick s).pc = s.pc := rfl
@[simp] theorem tick_stack (s : State) : (tick s).stack = s.stack := rfl
@[simp] theorem tick_sp (s : State) : (tick s).sp = s.sp := rfl
@[simp] theorem tick_disp (s : State) : (tick s).disp = s.disp := rfl
@[simp] theorem tick_dt (s : State) : (tick s).dt = tickTimer s.dt := rfl
@[simp] theorem tick_st (s : State) : (tick s).st = tickTimer s.st := rfl
@[simp] theorem tick_report (s : State) : (tick s).report = s.report := rfl
@[simp] theorem tick_env (s : State) : (tick s).env = s.env := rfl

/-! #### `tickTimes` -/

@[simp] theorem tickTimes_mem (s : State) (n : Nat) : (tickTimes n s).mem = s.mem := rfl
@[simp] theorem tickTimes_v (s : State) (n : Nat) : (tickTimes n s).v = s.v := rfl
@[simp] theorem tickTimes_i (s : State) (n : Nat) : (tickTimes n s).i = s.i := rfl
@[simp] theorem tickTimes_pc (s : State) (n : Nat) : (tickTimes n s).pc = s.pc := rfl
@[simp] theorem tickTimes_stack (s : State) (n : Nat) : (tickTimes n s).stack = s.stack := rfl
@[simp] theorem tickTimes_sp (s : State) (n : Nat) : (tickTimes n s).sp = s.sp := rfl
@[simp] theorem tickTimes_disp (s : State) (n : Nat) : (tickTimes n s).disp = s.disp := rfl
@[simp] theorem tickTimes_dt (s : State) (n : Nat) : (tickTimes n s).dt = timerAfter n s.dt := rfl
@[simp] theorem tickTimes_st (s : State) (n : Nat) : (tickTimes n s).st = timerAfter n s.st := rfl
@[simp] theorem tickTimes_report (s : State) (n : Nat) : (tickTimes n s).report = s.report := rfl
@[simp] theorem tickTimes_env (s : State) (n : Nat) : (tickTimes n s).env = s.env := rfl

/-! #### `betweenSteps` -/

@[simp] theorem betweenSteps_mem (s : State) : (betweenSteps s).mem = s.mem := rfl
@[simp] theorem betweenSteps_v (s : State) : (betweenSteps s).v = s.v := rfl
@[simp] theorem betweenSteps_i (s : State) : (betweenSteps s).i = s.i := rfl
@[simp] theorem betweenSteps_pc (s : State) : (betweenSteps s).pc = s.pc := rfl
@[simp] theorem betweenSteps_stack (s : State) : (betweenSteps s).stack = s.stack := rfl
@[simp] theorem betweenSteps_sp (s : State) : (betweenSteps s).sp = s.sp := rfl
@[simp] theorem betweenSteps_disp (s : State) : (betweenSteps s).disp = s.disp := rfl
@[simp] theorem betweenSteps_dt (s : State) : (betweenSteps s).dt = timerAfter s.env.nextMove.ticks s.dt := rfl
@[simp] theorem betweenSteps_st (s : State) : (betweenSteps s).st = timerAfter s.env.nextMove.ticks s.st := rfl
@[simp] theorem betweenSteps_report (s : State) : (betweenSteps s).report = s.report := rfl
@[simp] theorem betweenSteps_env (s : State) : (betweenSteps s).env = s.env.afterMove := rfl

/-! #### `loadBytes` -/

@[simp] theorem loadBytes_mem (s : State) (a : Nat) (l : List Byte) : (loadBytes a l s).mem = memSetList s.mem a l := rfl
@[simp] theorem loadBytes_v (s : State) (a : Nat) (l : List Byte) : (loadBytes a l s).v = s.v := rfl
@[simp] theorem loadBytes_i (s : State) (a : Nat) (l : List Byte) : (loadBytes a l s).i = s.i := rfl
@[simp] theorem loadBytes_pc (s : State) (a : Nat) (l : List Byte) : (loadBytes a l s).pc = s.pc := rfl
@[simp] theorem loadBytes_stack (s : State) (a : Nat) (l : List Byte) : (loadBytes a l s).stack = s.stack := rfl
@[simp] theorem loadBytes_sp (s : State) (a : Nat) (l : List Byte) : (loadBytes a l s).sp = s.sp := rfl
@[simp] theorem loadBytes_disp (s : State) (a : Nat) (l : List Byte) : (loadBytes a l s).disp = s.disp := rfl
@[simp] theorem loadBytes_dt (s : State) (a : Nat) (l : List Byte) : (loadBytes a l s).dt = s.dt := rfl
@[simp] theorem loadBytes_st (s : State) (a : Nat) (l : List Byte) : (loadBytes a l s).st = s.st := rfl
@[simp] theorem loadBytes_report (s : State) (a : Nat) (l : List Byte) : (loadBytes a l s).report = s.report := rfl
@[simp] theorem loadBytes_env (s : State) (a : Nat) (l : List Byte) : (loadBytes a l s).env = s.env := rfl

/-! #### `skipIf` -/

theorem State.skipIf_eq (s : State) (c : Bool) : s.skipIf c = s.goto (s.pc + if c then 4 else 2) := by
  cases c <;> rfl

/-! #### Reading a register -/

theorem State.getV_eq (s t : State) (h : t.v = s.v) (x : RegIx) : t.getV x = s.getV x := by
  simp [State.getV, h]

@[simp] theorem State.getV_setV (s : State) (x y : RegIx) (b : Byte) :
    (s.setV x b).getV y = if y = x then b else s.getV y := by
  simp only [State.getV, State.setV, Vector.getElem_set]
  by_cases h : y = x
  · simp [h]
  · rw [if_neg (fun e => h (Fin.ext e.symm)), if_neg h]

@[simp] theorem State.getV_goto (s : State) (w : Word) (x : RegIx) : (s.goto w).getV x = s.getV x := rfl
@[simp] theorem State.getV_advance (s : State) (x : RegIx) : s.advance.getV x = s.getV x := rfl
@[simp] theorem State.getV_await (s : State) (x : RegIx) : s.await.getV x = s.getV x := rfl
@[simp] theorem State.getV_setI (s : State) (w : Word) (x : RegIx) : (s.setI w).getV x = s.getV x := rfl
@[simp] theorem State.getV_setDt (s : State) (b : Byte) (x : RegIx) : (s.setDt b).getV x = s.getV x := rfl
@[simp] theorem State.getV_setSt (s : State) (b : Byte) (x : RegIx) : (s.setSt b).getV x = s.getV x := rfl
@[simp] theorem State.getV_setMem (s : State) (m : Memory) (x : RegIx) : (s.setMem m).getV x = s.getV x := rfl
@[simp] theorem State.getV_setDisp (s : State) (d : Display) (x : RegIx) : (s.setDisp d).getV x = s.getV x := rfl
@[simp] theorem State.getV_betweenSteps (s : State) (x : RegIx) : (betweenSteps s).getV x = s.getV x := rfl

/-! #### What the parts show after an update -/

@[simp] theorem Part.view_reg (s : State) (x : RegIx) : (Part.reg x).view s = (s.getV x).toNat := rfl
@[simp] theorem Part.view_byte (s : State) (a : Nat) : (Part.byte a).view s = (memGet s.mem a).toNat := rfl
@[simp] theorem Part.view_addrReg (s : State) : Part.addrReg.view s = s.i.toNat := rfl
@[simp] theorem Part.view_pc (s : State) : Part.pc.view s = s.pc.toNat := rfl
@[simp] theorem Part.view_slot (s : State) (k : Fin 16) : (Part.slot k).view s = (s.stack[k.val]).toNat := rfl
@[simp] theorem Part.view_sp (s : State) : Part.sp.view s = s.sp.val := rfl
@[simp] theorem Part.view_pixel (s : State) (r : Fin 32) (c : Fin 64) :
    (Part.pixel r c).view s = (pixelAt s.disp r.val c.val).toNat := rfl
@[simp] theorem Part.view_dt (s : State) : Part.dt.view s = s.dt.toNat := rfl
@[simp] theorem Part.view_st (s : State) : Part.st.view s = s.st.toNat := rfl
@[simp] theorem Part.view_report (s : State) : Part.report.view s = s.report.status := rfl

/-- States with the same cells, result output and host's record agree on every part: the empty frame. -/
theorem Frame.of_eq {W : Part → Prop} (s : State) : Frame W s s := ⟨fun _ _ => rfl, rfl⟩

theorem Frame.trans {W : Part → Prop} {s t u : State} (h : Frame W s t) (k : Frame W t u) : Frame W s u :=
  ⟨fun p hp => (k.1 p hp).trans (h.1 p hp), k.2.trans h.2⟩

theorem Frame.weaken {W X : Part → Prop} {s t : State} (h : Frame W s t) (hx : ∀ p, W p → X p) : Frame X s t :=
  ⟨fun p hp => h.1 p fun w => hp (hx p w), h.2⟩

/-- Writing one register and advancing changes that register, `pc` and the result output alone. -/
theorem Frame.setV_advance (s : State) (x : RegIx) (b : Byte) :
    Frame (fun p => p = .reg x ∨ p.isControl) s (s.setV x b).advance := by
  refine ⟨fun p hp => ?_, rfl⟩
  cases p <;> simp_all [Part.isControl]

/-- Setting `pc` changes `pc` and the result output alone. -/
theorem Frame.goto (s : State) (w : Word) : Frame Part.isControl s (s.goto w) := by
  refine ⟨fun p hp => ?_, rfl⟩
  cases p <;> simp_all [Part.isControl]

end Sys2Proof.Machine
end

