-- ==== Sys2Proof/Laws/Ops.lean ====
section
/-! SUPPORT. What each shared operation can do: the call stack, the register block, the flags, the operand forms, the fetch. -/

namespace Sys2Proof.Machine

/-! ### The call stack (R18) -/

/-- All a push can do: with `SP = 16` nothing; else it writes the slot `SP` and raises `SP`. -/
theorem push_cases (s : State) (w : Word) :
    (s.sp.val = 16 ∧ s.push w = none) ∨
      ∃ (_ : s.sp.val < 16),
        s.push w = some { s with stack := s.stack.set s.sp.val w, sp := ⟨s.sp.val + 1, by omega⟩ } := by
  by_cases h : s.sp.val < 16
  · exact .inr ⟨h, dif_pos h⟩
  · exact .inl ⟨by omega, dif_neg h⟩

/-- All a pop can do: with `SP = 0` nothing; else it lowers `SP` and reads the slot that `SP` then names. -/
theorem pop_cases (s : State) :
    (s.sp.val = 0 ∧ s.pop = none) ∨
      ∃ (_h : s.sp.val ≠ 0),
        s.pop = some (s.stack[s.sp.val - 1]'(by omega), { s with sp := ⟨s.sp.val - 1, by omega⟩ }) := by
  by_cases h : s.sp.val = 0
  · exact .inl ⟨h, dif_pos h⟩
  · exact .inr ⟨h, dif_neg h⟩

/-! ### The register block (R126, R127) -/

@[simp] theorem regBlock_length (s : State) (x : RegIx) : (s.regBlock x).length = x.val + 1 := by
  have : min (x.val + 1) 16 = x.val + 1 := by omega
  simp [State.regBlock, this]

/-- The k-th byte of the block is `V[k]`. -/
theorem regBlock_getD (s : State) (x k : RegIx) (h : k ≤ x) : (s.regBlock x).getD k.val 0 = s.getV k := by
  have hk : k.val < x.val + 1 := Nat.lt_succ_of_le h
  simp [State.regBlock, State.getV, List.getD, hk, k.isLt]

/-- A register after a block load: the byte of its place up to `V[x]`, above it what it was. -/
theorem loadBlock_get (v : Vector Byte 16) (m : Memory) (a : Nat) (x k : RegIx) :
    (loadBlock v m a x)[k.val] = if k ≤ x then memGet m (a + k.val) else v[k.val] := by
  simp [loadBlock]

/-! ### Results and flags (R99 to R105) -/

@[simp] theorem flagByte_toNat (c : Bool) : (flagByte c).toNat = if c then 1 else 0 := by cases c <;> rfl

/-- A register after a result and then its flag: VF is the flag, even for `x = 15`. -/
theorem getV_writeResultThenFlag (s : State) (x y : RegIx) (f : Flagged) :
    (s.writeResultThenFlag x f).getV y = if y = 15 then f.flag else if y = x then f.result else s.getV y := by
  simp only [State.writeResultThenFlag, State.getV_setV]

/-- A register after a flag and then its result: `V[x]` is the result, even for `x = 15`. -/
theorem getV_writeFlagThenResult (s : State) (x y : RegIx) (f : Flagged) :
    (s.writeFlagThenResult x f).getV y = if y = x then f.result else if y = 15 then f.flag else s.getV y := by
  simp only [State.writeFlagThenResult, State.getV_setV]

theorem addFlags_result (a b : Byte) : (addFlags a b).result.toNat = (a.toNat + b.toNat) % 256 := by
  simp [addFlags]

theorem addFlags_flag (a b : Byte) : (addFlags a b).flag.toNat = if a.toNat + b.toNat > 255 then 1 else 0 := by
  simp [addFlags]

theorem subFlags_result (a b : Byte) : ((subFlags a b).result.toNat : Int) = (a.toNat - b.toNat : Int) % 256 := by
  have ha := a.isLt
  have hb := b.isLt
  simp only [subFlags, BitVec.toNat_ofNat]
  omega

theorem subFlags_flag (a b : Byte) : (subFlags a b).flag.toNat = if b.toNat > a.toNat then 1 else 0 := by
  simp [subFlags]

theorem shrFlags_result (a : Byte) : (shrFlags a).result.toNat = a.toNat / 2 := by
  have ha := a.isLt
  simp only [shrFlags, BitVec.toNat_ofNat]
  omega

theorem shrFlags_flag (a : Byte) : (shrFlags a).flag.toNat = a.toNat % 2 := by
  simp only [shrFlags, flagByte_toNat, decide_eq_true_eq]
  split <;> omega

theorem shlFlags_result (a : Byte) : (shlFlags a).result.toNat = a.toNat * 2 % 256 := by
  simp only [shlFlags, BitVec.toNat_ofNat]
  omega

theorem shlFlags_flag (a : Byte) : (shlFlags a).flag.toNat = a.toNat / 128 := by
  have ha := a.isLt
  simp only [shlFlags, flagByte_toNat, decide_eq_true_eq]
  split <;> omega

/-- Writing a result and its flag in either order changes `V[x]`, VF, and no other part. -/
theorem Frame.writeResultThenFlag_advance (s : State) (x : RegIx) (f : Flagged) :
    Frame (fun p => p = .reg x ∨ p = .reg 15 ∨ p.isControl) s (s.writeResultThenFlag x f).advance := by
  refine ⟨fun p hp => ?_, rfl⟩
  cases p <;> simp_all [Part.isControl, State.writeResultThenFlag]

theorem Frame.writeFlagThenResult_advance (s : State) (x : RegIx) (f : Flagged) :
    Frame (fun p => p = .reg x ∨ p = .reg 15 ∨ p.isControl) s (s.writeFlagThenResult x f).advance := by
  refine ⟨fun p hp => ?_, rfl⟩
  cases p <;> simp_all [Part.isControl, State.writeFlagThenResult]

/-! ### Operand forms -/

@[simp] theorem zextAddr_toNat (nnn : Addr12) : (zextAddr nnn).toNat = nnn.toNat := by
  have := nnn.isLt
  simp [zextAddr]
  omega

@[simp] theorem zextByte_toNat (b : Byte) : (zextByte b).toNat = b.toNat := by
  have := b.isLt
  simp [zextByte]
  omega

/-- The glyph address is the exact sum, below 0x200 with its five bytes (R124). -/
theorem glyphAddr_toNat (d : Nat) (hd : d < 16) :
    (glyphAddr d).toNat = Config.fontBase.val + 5 * d ∧ (glyphAddr d).toNat + 5 ≤ 0x200 := by
  have hf := Config.fontBase.isLt
  have he : (glyphAddr d).toNat = Config.fontBase.val + 5 * d := by
    rw [glyphAddr, BitVec.toNat_ofNat]
    exact Nat.mod_eq_of_lt (by omega)
  exact ⟨he, by omega⟩

theorem lowestKeyFrom_none {keys : BitVec 16} {k fuel : Nat} (h : ∀ j, k ≤ j → j < k + fuel → keys.getLsbD j = false) :
    lowestKeyFrom keys k fuel = none := by
  induction fuel generalizing k with
  | zero => rfl
  | succ n ih =>
    simp only [lowestKeyFrom, keyDown, h k (by omega) (by omega), Bool.false_eq_true, if_false]
    exact ih fun j h1 h2 => h j (by omega) (by omega)

theorem lowestKeyFrom_some {keys : BitVec 16} {k fuel r : Nat} (h1 : k ≤ r) (h2 : r < k + fuel)
    (hr : keys.getLsbD r = true) (hl : ∀ j, k ≤ j → j < r → keys.getLsbD j = false) :
    lowestKeyFrom keys k fuel = some r := by
  induction fuel generalizing k with
  | zero => omega
  | succ n ih =>
    by_cases hk : k = r
    · subst hk
      simp [lowestKeyFrom, keyDown, hr]
    · simp only [lowestKeyFrom, keyDown, hl k (by omega) (by omega), Bool.false_eq_true, if_false]
      exact ih (by omega) (by omega) fun j h3 h4 => hl j (by omega) h4

/-- With no key down there is no lowest key. -/
theorem lowestKey_zero : lowestKey 0 = none := by decide

/-- The lowest key is the least one down (R119). -/
theorem lowestKey_some {keys : BitVec 16} {k : Nat} (h : k < 16) (hk : keys.getLsbD k = true)
    (hl : ∀ j, j < k → keys.getLsbD j = false) : lowestKey keys = some k :=
  lowestKeyFrom_some (Nat.zero_le k) (by omega) hk fun j _ hj => hl j hj

/-- If no lowest key is found, no key is down. -/
theorem keys_eq_zero_of_lowestKey {keys : BitVec 16} (h : lowestKey keys = none) : keys = 0 := by
  have none_down : ∀ n k, lowestKeyFrom keys k n = none → ∀ j, k ≤ j → j < k + n → keys.getLsbD j = false := by
    intro n
    induction n with
    | zero => intro k _ j h1 h2; omega
    | succ n ih =>
      intro k hk j h1 h2
      simp only [lowestKeyFrom] at hk
      split at hk
      next => cases hk
      next hd =>
        by_cases hj : j = k
        · subst hj; simpa [keyDown] using hd
        · exact ih (k + 1) hk j (by omega) (by omega)
  apply BitVec.eq_of_getLsbD_eq
  intro j hj
  exact (none_down 16 0 h j (by omega) (by omega)).trans (by simp)

/-! ### The fetch (R42, R46) -/

/-- All a fetch can do. -/
theorem fetchWord_cases (s : State) :
    (s.pc.toNat ≤ 0xFFE ∧ fetchWord s = .ok (wordAt s.mem s.pc.toNat)) ∨
      (s.pc.toNat > 0xFFE ∧ fetchWord s = .error .memoryOutOfBounds) := by
  by_cases h : inBounds s.pc.toNat 2 = true
  · have := (inBounds_iff _ _).1 h
    exact .inl ⟨by omega, by simp [fetchWord, h]⟩
  · simp only [Bool.not_eq_true] at h
    have := (inBounds_eq_false_iff _ _).1 h
    exact .inr ⟨by omega, by simp [fetchWord, h]⟩

theorem runWord_eq (w : Word) (s : State) :
    runWord w s = match decodeWord w with | some i => exec i s | none => execNop s := by
  cases h : decodeWord w <;> simp only [runWord, decodeBytes_hi_lo, h]

/-- All a Step can do: the fetch fault, the decoded instruction, or the no-op. -/
theorem stepOp_cases (s : State) :
    (s.pc.toNat > 0xFFE ∧ s.current = none ∧ stepOp s = .fault .memoryOutOfBounds) ∨
      (s.pc.toNat ≤ 0xFFE ∧ ∃ i, decodeWord (wordAt s.mem s.pc.toNat) = some i ∧ s.current = some i ∧ stepOp s = exec i s) ∨
      (s.pc.toNat ≤ 0xFFE ∧ decodeWord (wordAt s.mem s.pc.toNat) = none ∧ s.current = none ∧ stepOp s = execNop s) := by
  rcases fetchWord_cases s with ⟨h, hf⟩ | ⟨h, hf⟩
  · cases hd : decodeWord (wordAt s.mem s.pc.toNat) with
    | none => exact .inr (.inr ⟨h, rfl, by simp [State.current, h, hd], by simp [stepOp, hf, runWord_eq, hd]⟩)
    | some i => exact .inr (.inl ⟨h, i, rfl, by simp [State.current, h, hd], by simp [stepOp, hf, runWord_eq, hd]⟩)
  · exact .inl ⟨h, by simp [State.current, Nat.not_le.2 h], by simp [stepOp, hf, raise]⟩

/-- The word at an address as a number (R42). -/
theorem wordAt_toNat (m : Memory) (a : Nat) : (wordAt m a).toNat = (memGet m a).toNat * 256 + (memGet m (a + 1)).toNat := by
  have h : (wordAt m a).toNat = ((memGet m a) ++ (memGet m (a + 1)) : BitVec (8 + 8)).toNat := rfl
  have h2 := (memGet m (a + 1)).isLt
  rw [h, BitVec.toNat_append, ← Nat.shiftLeft_add_eq_or_of_lt h2, Nat.shiftLeft_eq]

end Sys2Proof.Machine
end

