-- ==== Sys2Proof/Laws/Draw.lean ====
section
/-! SUPPORT. What the sprite compositor does, cell by cell, and what its collision flag says (R110 to R113). -/

namespace Sys2Proof.Machine

/-- A draw that toggles exactly the cells of `P`, each once, and adds to the collision flag whether one of them was set. -/
def Drawn (P : Nat → Nat → Prop) (c c' : Canvas) : Prop :=
  (∀ r k, r < 32 → k < 64 →
    (P r k → pixelAt c'.disp r k = !pixelAt c.disp r k) ∧ (¬ P r k → pixelAt c'.disp r k = pixelAt c.disp r k)) ∧
  (c'.hit = true ↔ c.hit = true ∨ ∃ r k, r < 32 ∧ k < 64 ∧ pixelAt c.disp r k = true ∧ P r k)

theorem Drawn.nothing (c : Canvas) : Drawn (fun _ _ => False) c c :=
  ⟨fun _ _ _ _ => ⟨False.elim, fun _ => rfl⟩, by simp⟩

theorem Drawn.congr {P Q : Nat → Nat → Prop} {c c' : Canvas} (h : Drawn P c c') (e : ∀ r k, P r k ↔ Q r k) : Drawn Q c c' := by
  have : P = Q := funext fun r => funext fun k => propext (e r k)
  exact this ▸ h

/-- Two draws on disjoint cells are one draw on both. -/
theorem Drawn.trans {P Q : Nat → Nat → Prop} {c d e : Canvas} (h : Drawn P c d) (g : Drawn Q d e)
    (disj : ∀ r k, P r k → ¬ Q r k) : Drawn (fun r k => P r k ∨ Q r k) c e := by
  refine ⟨fun r k hr hk => ?_, ?_⟩
  · obtain ⟨h1, h2⟩ := h.1 r k hr hk
    obtain ⟨g1, g2⟩ := g.1 r k hr hk
    by_cases hp : P r k
    · exact ⟨fun _ => (g2 (disj r k hp)).trans (h1 hp), fun hn => absurd (.inl hp) hn⟩
    · by_cases hq : Q r k
      · exact ⟨fun _ => (g1 hq).trans (congrArg _ (h2 hp)), fun hn => absurd (.inr hq) hn⟩
      · exact ⟨fun ho => absurd ho (by simp [hp, hq]), fun _ => (g2 hq).trans (h2 hp)⟩
  · rw [g.2, h.2]
    constructor
    · rintro ((hc | ⟨r, k, hr, hk, hpx, hp⟩) | ⟨r, k, hr, hk, hpx, hq⟩)
      · exact .inl hc
      · exact .inr ⟨r, k, hr, hk, hpx, .inl hp⟩
      · have hp : ¬ P r k := fun hp => disj r k hp hq
        rw [(h.1 r k hr hk).2 hp] at hpx
        exact .inr ⟨r, k, hr, hk, hpx, .inr hq⟩
    · rintro (hc | ⟨r, k, hr, hk, hpx, hp | hq⟩)
      · exact .inl (.inl hc)
      · exact .inl (.inr ⟨r, k, hr, hk, hpx, hp⟩)
      · have hp : ¬ P r k := fun hp => disj r k hp hq
        exact .inr ⟨r, k, hr, hk, by rw [(h.1 r k hr hk).2 hp]; exact hpx, hq⟩

theorem pixelAt_of_lt (d : Display) {r c : Nat} (hr : r < 32) (hc : c < 64) : pixelAt d r c = (d[r])[c] := by
  simp [pixelAt, hr, hc]

/-- Displays with equal cells are equal. -/
theorem display_ext {d e : Display} (h : ∀ r c, r < 32 → c < 64 → pixelAt d r c = pixelAt e r c) : d = e := by
  apply Vector.ext
  intro r hr
  apply Vector.ext
  intro c hc
  rw [← pixelAt_of_lt d hr hc, ← pixelAt_of_lt e hr hc]
  exact h r c hr hc

/-- One pixel (R110, R112). -/
theorem drawPixel_drawn (row col : Nat) (bit : Bool) (c : Canvas) :
    Drawn (fun r k => row % 32 = r ∧ col % 64 = k ∧ bit = true) c (drawPixel row col bit c) := by
  have hrow : row % 32 < 32 := Nat.mod_lt _ (by decide)
  have hcol : col % 64 < 64 := Nat.mod_lt _ (by decide)
  refine ⟨fun r k hr hk => ?_, ?_⟩
  · rw [pixelAt_of_lt _ hr hk, pixelAt_of_lt _ hr hk]
    simp only [drawPixel, Vector.getElem_set]
    by_cases h1 : row % 32 = r
    · subst h1
      simp only [if_true, Vector.getElem_set]
      by_cases h2 : col % 64 = k
      · subst h2
        cases bit <;> simp
      · simp [h2]
    · simp [h1]
  · simp only [drawPixel, Bool.or_eq_true, Bool.and_eq_true]
    constructor
    · rintro (h | ⟨hb, ho⟩)
      · exact .inl h
      · exact .inr ⟨row % 32, col % 64, hrow, hcol, by rw [pixelAt_of_lt _ hrow hcol]; exact ho, rfl, rfl, hb⟩
    · rintro (h | ⟨r, k, hr, hk, hp, rfl, rfl, hb⟩)
      · exact .inl h
      · exact .inr ⟨hb, by rw [pixelAt_of_lt _ hrow hcol] at hp; exact hp⟩

/-- The last `n` bits of a sprite byte, from column `col` on. -/
theorem drawBits_drawn (row col : Nat) (b : Byte) (n : Nat) (hn : n ≤ 64) (c : Canvas) :
    Drawn (fun r k => row % 32 = r ∧ ∃ j, j < n ∧ (col + j) % 64 = k ∧ b.getLsbD (n - 1 - j) = true) c
      (drawBits row col b n c) := by
  induction n generalizing col c with
  | zero => exact (Drawn.nothing c).congr fun r k => by simp
  | succ n ih =>
    refine ((drawPixel_drawn row col (b.getLsbD n) c).trans (ih (col + 1) (by omega) _) ?_).congr ?_
    · rintro r k ⟨-, h2, -⟩ ⟨-, j, hj, h4, -⟩
      omega
    · intro r k
      constructor
      · rintro (⟨h1, h2, h3⟩ | ⟨h1, j, hj, h2, h3⟩)
        · exact ⟨h1, 0, by omega, h2, h3⟩
        · refine ⟨h1, j + 1, by omega, by rw [← h2]; congr 1; omega, ?_⟩
          rwa [show n + 1 - 1 - (j + 1) = n - 1 - j by omega]
      · rintro ⟨h1, j, hj, h2, h3⟩
        cases j with
        | zero => exact .inl ⟨h1, h2, h3⟩
        | succ j =>
          refine .inr ⟨h1, j, by omega, by rw [← h2]; congr 1; omega, ?_⟩
          rwa [show n + 1 - 1 - (j + 1) = n - 1 - j by omega] at h3

theorem spriteBit_nil (cx cy r k : Nat) : ¬ spriteBit [] cx cy r k := by
  rintro ⟨i, j, hi, -⟩
  simp at hi

theorem spriteBit_cons (b : Byte) (rest : List Byte) (cx cy r k : Nat) :
    spriteBit (b :: rest) cx cy r k ↔
      (cy % 32 = r ∧ ∃ j, j < 8 ∧ (cx + j) % 64 = k ∧ b.getLsbD (7 - j) = true) ∨ spriteBit rest cx (cy + 1) r k := by
  constructor
  · rintro ⟨i, j, hi, hj, h1, h2, h3⟩
    cases i with
    | zero => exact .inl ⟨h1, j, hj, h2, by simpa using h3⟩
    | succ i =>
      refine .inr ⟨i, j, by simpa using hi, hj, by rw [← h1]; congr 1; omega, h2, by simpa using h3⟩
  · rintro (⟨h1, j, hj, h2, h3⟩ | ⟨i, j, hi, hj, h1, h2, h3⟩)
    · exact ⟨0, j, by simp, hj, h1, h2, by simpa using h3⟩
    · exact ⟨i + 1, j, by simpa using hi, hj, by rw [← h1]; congr 1; omega, h2, by simpa using h3⟩

/-- All a sprite draw can do: it toggles exactly the cells under the sprite's 1 bits, after wrapping, and the flag gains whether one
of them was set. At most 32 rows, so that no two pixels of one draw fall on one cell (R113). -/
theorem drawRows_drawn (cx cy : Nat) (bytes : List Byte) (hn : bytes.length ≤ 32) (c : Canvas) :
    Drawn (spriteBit bytes cx cy) c (drawRows cx cy bytes c) := by
  induction bytes generalizing cy c with
  | nil => exact (Drawn.nothing c).congr fun r k => by simp [spriteBit_nil]
  | cons b rest ih =>
    simp only [List.length_cons] at hn
    refine ((drawBits_drawn cy cx b 8 (by decide) c).trans (ih (cy + 1) (by omega) _) ?_).congr ?_
    · rintro r k ⟨h1, -⟩ ⟨i, j, hi, -, h2, -⟩
      omega
    · intro r k
      rw [spriteBit_cons]

/-- A covered cell is on the display. -/
theorem spriteBit_bounds {bytes : List Byte} {cx cy r k : Nat} (h : spriteBit bytes cx cy r k) : r < 32 ∧ k < 64 := by
  obtain ⟨i, j, -, -, rfl, rfl, -⟩ := h
  exact ⟨Nat.mod_lt _ (by decide), Nat.mod_lt _ (by decide)⟩

/-- All `Dxyn` can do: the bounds fault, or the draw of its bytes with VF the flag (R110, R114). -/
theorem execDrw_cases (x y : RegIx) (n : Nibble) (s : State) :
    ((n.toNat ≠ 0 ∧ 0x1000 < s.i.toNat + n.toNat) ∧ execDrw x y n s = .fault .memoryOutOfBounds) ∨
      ((n.toNat = 0 ∨ s.i.toNat + n.toNat ≤ 0x1000) ∧ ∃ c : Canvas,
        Drawn (spriteBit (memGetList s.mem s.i.toNat n.toNat) (s.getV x).toNat (s.getV y).toNat)
          { disp := s.disp, hit := false } c ∧
        (n.toNat = 0 → c = { disp := s.disp, hit := false }) ∧
        execDrw x y n s = .next ((s.setDisp c.disp).setV vf (flagByte c.hit)).advance) := by
  have hn := n.isLt
  rcases memRead_cases s.mem s.i.toNat n.toNat with ⟨hb, he⟩ | ⟨hb, he⟩
  · refine .inr ⟨hb, drawRows (s.getV x).toNat (s.getV y).toNat (memGetList s.mem s.i.toNat n.toNat)
      { disp := s.disp, hit := false }, drawRows_drawn _ _ _ (by simp; omega) _, fun h0 => by rw [h0]; rfl, ?_⟩
    simp [execDrw, he, done]
  · exact .inl ⟨hb, by simp [execDrw, he, raise]⟩

end Sys2Proof.Machine
end

