-- ==== Sys2Proof/Laws/HostOps.lean ====
section
/-! SUPPORT. Ticks one by one and at once, and what `step` adds to the Step operation. -/

namespace Sys2Proof.Machine

theorem tickTimer_toNat (b : Byte) : (tickTimer b).toNat = b.toNat - 1 := by
  have hb := b.isLt
  simp only [tickTimer]
  split
  next h => simp [h]
  next h =>
    have h0 : b.toNat ≠ 0 := fun e => h (BitVec.eq_of_toNat_eq (by simpa using e))
    have h1 : (1 : Byte) ≤ b := by
      rw [BitVec.le_def]
      simp
      omega
    rw [BitVec.toNat_sub_of_le h1]
    simp

theorem timerAfter_toNat (n : Nat) (b : Byte) : (timerAfter n b).toNat = b.toNat - n := by
  have hb := b.isLt
  simp only [timerAfter, BitVec.toNat_ofNat]
  omega

@[simp] theorem timerAfter_zero (b : Byte) : timerAfter 0 b = b :=
  BitVec.eq_of_toNat_eq (by simp [timerAfter_toNat])

theorem timerAfter_tickTimer (n : Nat) (b : Byte) : timerAfter n (tickTimer b) = timerAfter (n + 1) b :=
  BitVec.eq_of_toNat_eq (by simp only [timerAfter_toNat, tickTimer_toNat]; omega)

/-- `n` Ticks at once are `n` Tick operations. -/
theorem tickTimes_eq_iterate (n : Nat) (s : State) : hostRun (List.replicate n .tick) s = tickTimes n s := by
  induction n generalizing s with
  | zero => simp [hostRun, tickTimes]
  | succ n ih =>
    rw [List.replicate_succ, hostRun]
    change hostRun (List.replicate n .tick) (tick s) = _
    rw [ih]
    simp [tickTimes, tick, timerAfter_tickTimer]

/-- `step` is the Step operation, then the host's move after a next state. -/
theorem step_eq (s : State) :
    step s = match stepOp s with
      | .next t => .next (betweenSteps t)
      | .fault f => .fault f
      | .refused r => .refused r := rfl

theorem step_next {s t : State} (h : step s = .next t) : ∃ u, stepOp s = .next u ∧ t = betweenSteps u := by
  rw [step_eq] at h
  cases hs : stepOp s with
  | next u => rw [hs] at h; cases h; exact ⟨u, rfl, rfl⟩
  | fault f => rw [hs] at h; cases h
  | refused r => rw [hs] at h; cases h

theorem step_fault {s : State} {f : Fault} (h : step s = .fault f) : stepOp s = .fault f := by
  rw [step_eq] at h
  cases hs : stepOp s with
  | next u => rw [hs] at h; cases h
  | fault g => rw [hs] at h; cases h; rfl
  | refused r => rw [hs] at h; cases h

end Sys2Proof.Machine
end

