-- ==== Sys2Proof/Laws/Exec.lean ====
section
/-! SUPPORT. All that each meaning with more than one outcome can do, and what the skips do; every other meaning is one equation by `rfl`. -/

namespace Sys2Proof.Machine

/-! ### Control transfer (R80, R82) -/

theorem execRet_cases (s : State) :
    (s.sp = 0 ∧ execRet s = .fault .stackUnderflow) ∨
      (s.sp ≠ 0 ∧ ∃ k : Fin 16, s.sp.val = k.val + 1 ∧
        execRet s = .next (({ s with sp := k.castSucc } : State).goto s.stack[k.val])) := by
  rcases pop_cases s with ⟨h, e⟩ | ⟨h, e⟩
  · exact .inl ⟨Fin.ext h, by simp [execRet, e, raise]⟩
  · have hlt : s.sp.val - 1 < 16 := by omega
    refine .inr ⟨fun e => h (congrArg Fin.val e), ⟨s.sp.val - 1, hlt⟩, ?_, by simp [execRet, e]⟩
    simp only
    omega

theorem execCall_cases (nnn : Addr12) (s : State) :
    (s.sp = 16 ∧ execCall nnn s = .fault .stackOverflow) ∨
      (s.sp ≠ 16 ∧ ∃ k : Fin 16, s.sp.val = k.val ∧
        execCall nnn s = .next
          (({ s with stack := s.stack.set k.val (s.pc + 2), sp := k.succ } : State).goto (zextAddr nnn))) := by
  rcases push_cases s (s.pc + 2) with ⟨h, e⟩ | ⟨h, e⟩
  · exact .inl ⟨Fin.ext h, by simp only [execCall, e, raise]⟩
  · refine .inr ⟨fun e => by rw [e] at h; exact absurd h (by decide), ⟨s.sp.val, h⟩, rfl, by simp only [execCall, e]; rfl⟩

/-! ### Skips (R85 to R88, R115, R116) -/

theorem execSeImm_eq (x : RegIx) (kk : Byte) (s : State) :
    execSeImm x kk s = .next (s.goto (s.pc + if s.getV x = kk then 4 else 2)) := by
  simp [execSeImm, State.skipIf_eq]

theorem execSneImm_eq (x : RegIx) (kk : Byte) (s : State) :
    execSneImm x kk s = .next (s.goto (s.pc + if s.getV x ≠ kk then 4 else 2)) := by
  simp [execSneImm, State.skipIf_eq]

theorem execSeReg_eq (x y : RegIx) (s : State) :
    execSeReg x y s = .next (s.goto (s.pc + if s.getV x = s.getV y then 4 else 2)) := by
  simp [execSeReg, State.skipIf_eq]

theorem execSneReg_eq (x y : RegIx) (s : State) :
    execSneReg x y s = .next (s.goto (s.pc + if s.getV x ≠ s.getV y then 4 else 2)) := by
  simp [execSneReg, State.skipIf_eq]

theorem execSkp_eq (x : RegIx) (s : State) :
    execSkp x s = .next (s.goto (s.pc + if s.env.keys.getLsbD ((s.getV x).toNat % 16) then 4 else 2)) := by
  simp [execSkp, State.skipIf_eq, keyDown, lowDigit]

theorem execSknp_eq (x : RegIx) (s : State) :
    execSknp x s = .next (s.goto (s.pc + if s.env.keys.getLsbD ((s.getV x).toNat % 16) then 2 else 4)) := by
  cases h : s.env.keys.getLsbD ((s.getV x).toNat % 16) <;> simp [execSknp, State.skipIf_eq, keyDown, lowDigit, h]

/-- All six skips are one jump by 4 or by 2 on their condition. -/
theorem exec_of_skipCond {i : Instr} {s : State} {c : Bool} (h : skipCond i s = some c) :
    exec i s = .next (s.goto (s.pc + if c then 4 else 2)) := by
  cases i <;> simp only [skipCond, Option.some.injEq, reduceCtorEq] at h <;> subst h
  · simp [exec, execSeImm_eq]
  · simp [exec, execSneImm_eq]
  · simp [exec, execSeReg_eq]
  · simp [exec, execSneReg_eq]
  · rw [exec, execSkp_eq]
  · rw [exec, execSknp_eq]
    congr 3
    cases s.env.keys.getLsbD ((s.getV _).toNat % 16) <;> rfl

/-! ### The key wait (R117, R119) -/

theorem execLdVxK_cases (x : RegIx) (s : State) :
    (s.env.keys = 0 ∧ execLdVxK x s = .next s.await) ∨
      ∃ k, lowestKey s.env.keys = some k ∧ execLdVxK x s = .next (s.setV x (BitVec.ofNat 8 k)).advance := by
  cases h : lowestKey s.env.keys with
  | none => exact .inl ⟨keys_eq_zero_of_lowestKey h, by simp [execLdVxK, h]⟩
  | some k => exact .inr ⟨k, rfl, by simp [execLdVxK, h]⟩

/-! ### Memory blocks (R125 to R127) -/

theorem execLdB_cases (x : RegIx) (s : State) :
    (0xFFF < s.i.toNat + 2 ∧ execLdB x s = .fault .memoryOutOfBounds) ∨
      (s.i.toNat + 2 ≤ 0xFFF ∧
        execLdB x s = .next (s.setMem (memSetList s.mem s.i.toNat (decimalDigits (s.getV x)))).advance) := by
  rcases memWrite_cases s.mem s.i.toNat (decimalDigits (s.getV x)) with ⟨h, e⟩ | ⟨h, e⟩ <;>
    simp only [decimalDigits, List.length_cons, List.length_nil] at h
  · exact .inr ⟨by omega, by simp [execLdB, State.baseAddr, e, done]⟩
  · exact .inl ⟨by omega, by simp [execLdB, State.baseAddr, e, raise]⟩

theorem execStoreRegs_cases (x : RegIx) (s : State) :
    (0xFFF < s.i.toNat + x.val ∧ execStoreRegs x s = .fault .memoryOutOfBounds) ∨
      (s.i.toNat + x.val ≤ 0xFFF ∧
        execStoreRegs x s = .next (s.setMem (memSetList s.mem s.i.toNat (s.regBlock x))).advance) := by
  rcases memWrite_cases s.mem s.i.toNat (s.regBlock x) with ⟨h, e⟩ | ⟨h, e⟩ <;> rw [regBlock_length] at h
  · exact .inr ⟨by omega, by simp [execStoreRegs, State.baseAddr, e, done]⟩
  · exact .inl ⟨by omega, by simp [execStoreRegs, State.baseAddr, e, raise]⟩

theorem execLoadRegs_cases (x : RegIx) (s : State) :
    (0xFFF < s.i.toNat + x.val ∧ execLoadRegs x s = .fault .memoryOutOfBounds) ∨
      (s.i.toNat + x.val ≤ 0xFFF ∧
        execLoadRegs x s = .next ({ s with v := loadBlock s.v s.mem s.i.toNat x } : State).advance) := by
  cases h : inBounds s.i.toNat (x.val + 1) with
  | true =>
    have hb := (inBounds_iff _ _).1 h
    exact .inr ⟨by omega, by simp [execLoadRegs, State.baseAddr, h, done]⟩
  | false =>
    have hb := (inBounds_eq_false_iff _ _).1 h
    exact .inl ⟨by omega, by simp [execLoadRegs, State.baseAddr, h, raise]⟩

/-! ### Runs of instructions -/

/-- A run over two lists is the run over the second from where the first ends. -/
theorem execAll_append {l m : List Instr} {s t : State} (h : execAll l s = .next t) : execAll (l ++ m) s = execAll m t := by
  induction l generalizing s with
  | nil => cases h; rfl
  | cons i rest ih =>
    simp only [execAll, List.cons_append] at h ⊢
    cases he : exec i s with
    | next u => rw [he] at h; exact ih h
    | fault f => rw [he] at h; cases h
    | refused r => rw [he] at h; cases h

/-! ### The advance of `pc` as a number -/

theorem pc_add_two_toNat (w : Word) : (w + 2).toNat = (w.toNat + 2) % 65536 := by
  rw [BitVec.toNat_add]; rfl

theorem pc_add_four_toNat (w : Word) : (w + 4).toNat = (w.toNat + 4) % 65536 := by
  rw [BitVec.toNat_add]; rfl

end Sys2Proof.Machine
end

