-- ==== Sys2Proof/Laws/PerInstr.lean ====
section
/-! SUPPORT. Per instruction: its encoded word matches its own row of the opcode map (R66). -/

namespace Sys2Proof.Laws.RowMatch

/-- The encoded word selects the row of the instruction. -/
def Statement (i : Instr) : Prop := encode i &&& i.mask = i.matchBits

theorem mask_nnn (f : Nibble) (a : Addr12) : encNNN f a &&& 0xF000 = encNNN f 0 := by
  apply BitVec.eq_of_getLsbD_eq
  intro k hk
  have h : ∀ k < 16, BitVec.getLsbD (0xF000 : Word) k = decide (12 ≤ k) := by decide
  rw [BitVec.getLsbD_and, h k hk, getLsbD_encNNN, getLsbD_encNNN]
  split
  next h1 => simp [Nat.not_le.2 h1]
  next h1 => simp [Nat.not_lt.1 h1]

theorem mask_xyn (f : Nibble) (x y : RegIx) (n : Nibble) : encXYN f x y n &&& 0xF00F = encXYN f 0 0 n := by
  apply BitVec.eq_of_getLsbD_eq
  intro k hk
  have h : ∀ k < 16, BitVec.getLsbD (0xF00F : Word) k = (decide (12 ≤ k) || decide (k < 4)) := by decide
  rw [BitVec.getLsbD_and, h k hk, getLsbD_encXYN, getLsbD_encXYN]
  by_cases h12 : k < 12 <;> by_cases h8 : k < 8 <;> by_cases h4 : k < 4 <;>
    simp [h12, h8, h4, Nat.not_lt.1] <;> omega

theorem mask_xkk (f : Nibble) (x : RegIx) (kk : Byte) : encXKK f x kk &&& 0xF0FF = encXKK f 0 kk := by
  apply BitVec.eq_of_getLsbD_eq
  intro k hk
  have h : ∀ k < 16, BitVec.getLsbD (0xF0FF : Word) k = (decide (12 ≤ k) || decide (k < 8)) := by decide
  rw [BitVec.getLsbD_and, h k hk, getLsbD_encXKK, getLsbD_encXKK]
  by_cases h12 : k < 12 <;> by_cases h8 : k < 8 <;> simp [h12, h8, Nat.not_lt.1] <;> omega

/-- The top digit alone (formats XKK and XYN under the mask 0xF000). -/
theorem mask_family (f : Nibble) (x : RegIx) (kk : Byte) : encXKK f x kk &&& 0xF000 = encNNN f 0 := mask_nnn f _

theorem ret : Statement .ret := rfl
theorem jp (nnn : Addr12) : Statement (.jp nnn) := (mask_nnn ..).trans rfl
theorem call (nnn : Addr12) : Statement (.call nnn) := (mask_nnn ..).trans rfl
theorem seImm (x : RegIx) (kk : Byte) : Statement (.seImm x kk) := (mask_family ..).trans rfl
theorem sneImm (x : RegIx) (kk : Byte) : Statement (.sneImm x kk) := (mask_family ..).trans rfl
theorem seReg (x y : RegIx) : Statement (.seReg x y) := (mask_xyn ..).trans rfl
theorem ldImm (x : RegIx) (kk : Byte) : Statement (.ldImm x kk) := (mask_family ..).trans rfl
theorem addImm (x : RegIx) (kk : Byte) : Statement (.addImm x kk) := (mask_family ..).trans rfl
theorem ldReg (x y : RegIx) : Statement (.ldReg x y) := (mask_xyn ..).trans rfl
theorem orReg (x y : RegIx) : Statement (.orReg x y) := (mask_xyn ..).trans rfl
theorem andReg (x y : RegIx) : Statement (.andReg x y) := (mask_xyn ..).trans rfl
theorem xorReg (x y : RegIx) : Statement (.xorReg x y) := (mask_xyn ..).trans rfl
theorem addReg (x y : RegIx) : Statement (.addReg x y) := (mask_xyn ..).trans rfl
theorem sub (x y : RegIx) : Statement (.sub x y) := (mask_xyn ..).trans rfl
theorem shr (x y : RegIx) : Statement (.shr x y) := (mask_xyn ..).trans rfl
theorem subn (x y : RegIx) : Statement (.subn x y) := (mask_xyn ..).trans rfl
theorem shl (x y : RegIx) : Statement (.shl x y) := (mask_xyn ..).trans rfl
theorem sneReg (x y : RegIx) : Statement (.sneReg x y) := (mask_xyn ..).trans rfl
theorem ldI (nnn : Addr12) : Statement (.ldI nnn) := (mask_nnn ..).trans rfl
theorem jpV0 (nnn : Addr12) : Statement (.jpV0 nnn) := (mask_nnn ..).trans rfl
theorem rnd (x : RegIx) (kk : Byte) : Statement (.rnd x kk) := (mask_family ..).trans rfl
theorem drw (x y : RegIx) (n : Nibble) : Statement (.drw x y n) := (mask_family ..).trans rfl
theorem skp (x : RegIx) : Statement (.skp x) := (mask_xkk ..).trans rfl
theorem sknp (x : RegIx) : Statement (.sknp x) := (mask_xkk ..).trans rfl
theorem ldVxDt (x : RegIx) : Statement (.ldVxDt x) := (mask_xkk ..).trans rfl
theorem ldVxK (x : RegIx) : Statement (.ldVxK x) := (mask_xkk ..).trans rfl
theorem ldDtVx (x : RegIx) : Statement (.ldDtVx x) := (mask_xkk ..).trans rfl
theorem ldStVx (x : RegIx) : Statement (.ldStVx x) := (mask_xkk ..).trans rfl
theorem addI (x : RegIx) : Statement (.addI x) := (mask_xkk ..).trans rfl
theorem ldF (x : RegIx) : Statement (.ldF x) := (mask_xkk ..).trans rfl
theorem ldB (x : RegIx) : Statement (.ldB x) := (mask_xkk ..).trans rfl
theorem storeRegs (x : RegIx) : Statement (.storeRegs x) := (mask_xkk ..).trans rfl
theorem loadRegs (x : RegIx) : Statement (.loadRegs x) := (mask_xkk ..).trans rfl

end Sys2Proof.Laws.RowMatch
end

