-- ==== Sys2Proof/Tests/Slice0.lean ====
section
/-! SUPPORT. Tests of one step each, their expected results from 95_test_vectors.md (named in each comment) or written out from the
encoding rules by hand; then, for each statement with hypotheses, a concrete witness that meets them. -/

open Sys2Proof Sys2Proof.Machine

namespace Sys2Proof.Tests

/-! ### Helpers: a small state, and looking at one result -/

/-- The reset state with some registers set, and the inputs `KEYS = 0x0000` and `RND = 0x00` unless a test gives others (the convention of
95_test_vectors.md; at `State.reset` itself the inputs are free, log entry 2). -/
def regs (l : List (RegIx × Byte)) : State := l.foldl (fun s p => s.setV p.1 p.2) (State.reset.withInputs 0 0)

/-- Bytes in memory. -/
def bytes (a : Nat) (l : List Byte) (s : State) : State := s.setMem (memSetList s.mem a l)

/-- One Step of the word placed at `pc`. -/
def one (w : Word) (s : State) : Result := stepOp (placeWord s w)

/-- What a next state shows; `none` after a fault or a refusal. -/
def look {α : Type} (r : Result) (f : State → α) : Option α :=
  match r with
  | .next t => some (f t)
  | .fault _ | .refused _ => none

/-- The fault a step ends in. -/
def faultOf (r : Result) : Option Fault :=
  match r with
  | .fault f => some f
  | .next _ | .refused _ => none

/-- The stack filled to a depth. -/
def depth (n : Fin 17) (s : State) : State := { s with sp := n }

/-- The state with another `pc`. -/
def atPc (w : Word) (s : State) : State := { s with pc := w }

/-- The state after a step, or the state before it. -/
def next (r : Result) (s : State) : State :=
  match r with
  | .next t => t
  | .fault _ | .refused _ => s

/-! ### Well-formedness. No term of `Instr` is ill formed: the bounds are in its types. Memories and Loads can be. -/

theorem test_wf_instr_all_bounds : (Instr.drw 15 15 15).wf = true ∧ (Instr.jp 0xFFF).wf = true ∧ (Instr.seImm 15 0xFF).wf = true := by
  decide
theorem test_wf_memory_in_order : Memory.wf [(0x200, 1), (0x201, 2), (0xFFF, 3)] = true := by decide
theorem test_wf_memory_refuses_out_of_order : Memory.wf [(0x201, 1), (0x200, 2)] = false := by decide
theorem test_wf_memory_refuses_repeat : Memory.wf [(0x200, 1), (0x200, 2)] = false := by decide
theorem test_wf_memory_refuses_zero_byte : Memory.wf [(0x200, 0)] = false := by decide
theorem test_wf_memory_refuses_beyond_top : Memory.wf [(0x1000, 1)] = false := by decide
/-- Z5: 3584 bytes at 0x200 fit, 3585 do not. -/
theorem test_wf_load_bound : loadFits 0x200 3584 = true ∧ loadFits 0x200 3585 = false := by decide

/-! ### Decoding: for each constructor a word written out from R62 and R66, `{family, x, y, n}` nibble by nibble -/

theorem test_decode_family0 : decodeWord 0x00EE = some .ret ∧ decodeWord 0x00E0 = none ∧ decodeWord 0x0123 = none := by decide
theorem test_decode_jp : decodeWord 0x1ABC = some (.jp 0xABC) := by decide
theorem test_decode_call : decodeWord 0x2345 = some (.call 0x345) := by decide
theorem test_decode_seImm : decodeWord 0x312A = some (.seImm 1 0x2A) := by decide
theorem test_decode_sneImm : decodeWord 0x4C7E = some (.sneImm 12 0x7E) := by decide
theorem test_decode_seReg : decodeWord 0x5AB0 = some (.seReg 10 11) ∧ decodeWord 0x5AB1 = none := by decide
theorem test_decode_ldImm : decodeWord 0x6AFF = some (.ldImm 10 0xFF) := by decide
theorem test_decode_addImm : decodeWord 0x7F03 = some (.addImm 15 0x03) := by decide
theorem test_decode_ldReg : decodeWord 0x8AB0 = some (.ldReg 10 11) := by decide
theorem test_decode_orReg : decodeWord 0x8AB1 = some (.orReg 10 11) := by decide
theorem test_decode_andReg : decodeWord 0x8AB2 = some (.andReg 10 11) := by decide
theorem test_decode_xorReg : decodeWord 0x8AB3 = some (.xorReg 10 11) := by decide
theorem test_decode_addReg : decodeWord 0x8AB4 = some (.addReg 10 11) := by decide
theorem test_decode_sub : decodeWord 0x8AB5 = some (.sub 10 11) := by decide
theorem test_decode_shr : decodeWord 0x8AB6 = some (.shr 10 11) := by decide
theorem test_decode_subn : decodeWord 0x8AB7 = some (.subn 10 11) := by decide
theorem test_decode_shl : decodeWord 0x8ABE = some (.shl 10 11) ∧ decodeWord 0x8AB8 = none ∧ decodeWord 0x8ABF = none := by decide
theorem test_decode_sneReg : decodeWord 0x9CD0 = some (.sneReg 12 13) ∧ decodeWord 0x9CDF = none := by decide
theorem test_decode_ldI : decodeWord 0xA300 = some (.ldI 0x300) := by decide
theorem test_decode_jpV0 : decodeWord 0xBFFF = some (.jpV0 0xFFF) := by decide
theorem test_decode_rnd : decodeWord 0xC10F = some (.rnd 1 0x0F) := by decide
theorem test_decode_drw : decodeWord 0xD12A = some (.drw 1 2 0xA) := by decide
theorem test_decode_skp : decodeWord 0xE19E = some (.skp 1) ∧ decodeWord 0xE19D = none := by decide
theorem test_decode_sknp : decodeWord 0xE1A1 = some (.sknp 1) ∧ decodeWord 0xE1A0 = none := by decide
theorem test_decode_ldVxDt : decodeWord 0xF307 = some (.ldVxDt 3) := by decide
theorem test_decode_ldVxK : decodeWord 0xF30A = some (.ldVxK 3) := by decide
theorem test_decode_ldDtVx : decodeWord 0xF315 = some (.ldDtVx 3) := by decide
theorem test_decode_ldStVx : decodeWord 0xF318 = some (.ldStVx 3) := by decide
theorem test_decode_addI : decodeWord 0xF31E = some (.addI 3) := by decide
theorem test_decode_ldF : decodeWord 0xF329 = some (.ldF 3) := by decide
theorem test_decode_ldB : decodeWord 0xFA33 = some (.ldB 10) := by decide
theorem test_decode_storeRegs : decodeWord 0xF155 = some (.storeRegs 1) := by decide
theorem test_decode_loadRegs : decodeWord 0xF365 = some (.loadRegs 3) ∧ decodeWord 0xF366 = none ∧ decodeWord 0xFFFF = none := by decide

/-- Bytes in memory order, high byte first (R42): 0x12, 0x34 is JP 0x234. -/
theorem test_decode_bytes_high_first : decodeBytes 0x12 0x34 = some (.jp 0x234) := by decide
theorem test_decode_table_word : decodeTableWord 16 0x8014 = some (.addReg 0 1) := by decide
/-- The fields of 0x8F1E (95_test_vectors.md section 1.3). -/
theorem test_fields : Word.family 0x8F1E = 8 ∧ Word.xField 0x8F1E = 15 ∧ Word.yField 0x8F1E = 1 ∧ Word.nField 0x8F1E = 0xE := by decide

/-! ### Flow (vectors F) -/

/-- F1 -/
theorem test_ret : look (one 0x00EE { atPc 0x300 (depth 1 (regs [])) with stack := (Vector.replicate 16 0).set 0 0x0202 })
    (fun t => (t.pc, t.sp, t.stack[0])) = some (0x202, 0, 0x0202) := by decide
/-- F2 -/
theorem test_ret_underflow : faultOf (one 0x00EE (regs [])) = some .stackUnderflow := by decide
/-- F3 -/
theorem test_jp : look (one 0x1ABC (regs [])) (·.pc) = some 0xABC := by decide
/-- F6 -/
theorem test_call_last_slot : look (one 0x2300 (depth 15 (regs []))) (fun t => (t.pc, t.sp, t.stack[15])) = some (0x300, 16, 0x0202) := by
  decide
/-- F7 -/
theorem test_call_overflow : faultOf (one 0x2300 (depth 16 (regs []))) = some .stackOverflow := by decide
/-- F9 -/
theorem test_jpV0_top : look (one 0xBFFF (regs [(0, 0xFF)])) (·.pc) = some 0x10FE := by decide
/-- F12 -/
theorem test_fetch_bound : faultOf (stepOp (atPc 0xFFF (regs []))) = some .memoryOutOfBounds := by decide
/-- F14 -/
theorem test_odd_pc : look (stepOp (atPc 0x201 (bytes 0x201 [0x61, 0x22] (regs [])))) (fun t => (t.getV 1, t.pc)) = some (0x22, 0x203) := by
  decide
/-- F16 -/
theorem test_00E0_is_no_op : look (one 0x00E0 ((regs []).setDisp ((Vector.replicate 32 (Vector.replicate 64 true)))))
    (fun t => (t.pc, pixelAt t.disp 0 0)) = some (0x202, true) := by decide

/-! ### Skips (vectors K) -/

/-- K1, K2 -/
theorem test_seImm : look (one 0x312A (regs [(1, 0x2A)])) (·.pc) = some 0x204 ∧ look (one 0x312A (regs [(1, 0x2B)])) (·.pc) = some 0x202 := by
  decide
/-- K3, K4 -/
theorem test_sneImm : look (one 0x412A (regs [(1, 0x2A)])) (·.pc) = some 0x202 ∧ look (one 0x412A (regs [])) (·.pc) = some 0x204 := by
  decide
/-- K5, K6 -/
theorem test_seReg : look (one 0x5120 (regs [(1, 7), (2, 7)])) (·.pc) = some 0x204 ∧
    look (one 0x5120 (regs [(1, 7), (2, 8)])) (·.pc) = some 0x202 := by decide
/-- K7, K8 -/
theorem test_sneReg : look (one 0x9120 (regs [(1, 7), (2, 8)])) (·.pc) = some 0x204 ∧
    look (one 0x9120 (regs [(1, 7), (2, 7)])) (·.pc) = some 0x202 := by decide
/-- K13 -/
theorem test_skip_at_top : look (one 0x3000 (atPc 0xFFE (regs []))) (·.pc) = some 0x1002 := by decide

/-! ### Immediates (vectors M) -/

/-- M2 -/
theorem test_ldImm_vf : look (one 0x6F00 (regs [(15, 0x55)])) (·.getV 15) = some 0 := by decide
/-- M3 -/
theorem test_addImm_wraps : look (one 0x7220 (regs [(2, 0xF0), (15, 7)])) (fun t => (t.getV 2, t.getV 15)) = some (0x10, 7) := by decide
/-- M8 -/
theorem test_ldI_clears_high_bits : look (one 0xA000 ((regs []).setI 0xFFFF)) (·.i) = some 0 := by decide
/-- M9 -/
theorem test_rnd : look (one 0xC10F ((regs []).withInputs 0 0xA7)) (·.getV 1) = some 0x07 := by decide

/-! ### The ALU (vectors A) -/

/-- A1 -/
theorem test_ldReg : look (one 0x8010 (regs [(0, 0xF0), (1, 0x3C), (15, 9)])) (fun t => (t.getV 0, t.getV 1, t.getV 15)) =
    some (0x3C, 0x3C, 9) := by decide
/-- A2 -/
theorem test_orReg : look (one 0x8011 (regs [(0, 0xF0), (1, 0x3C), (15, 9)])) (fun t => (t.getV 0, t.getV 15)) = some (0xFC, 9) := by decide
/-- A3 -/
theorem test_andReg : look (one 0x8012 (regs [(0, 0xF0), (1, 0x3C), (15, 9)])) (fun t => (t.getV 0, t.getV 15)) = some (0x30, 9) := by decide
/-- A4 -/
theorem test_xorReg : look (one 0x8013 (regs [(0, 0xF0), (1, 0x3C), (15, 9)])) (fun t => (t.getV 0, t.getV 15)) = some (0xCC, 9) := by decide
/-- A5, and A39: VF as destination keeps the carry -/
theorem test_addReg : look (one 0x8014 (regs [(0, 0xFA), (1, 0x0A), (15, 9)])) (fun t => (t.getV 0, t.getV 15)) = some (0x04, 1) ∧
    look (one 0x8F14 (regs [(15, 3), (1, 1)])) (·.getV 15) = some 0 := by decide
/-- A45: VF as source -/
theorem test_addReg_source_vf : look (one 0x80F4 (regs [(0, 0xFF), (15, 1)])) (fun t => (t.getV 0, t.getV 15)) = some (0, 1) := by decide
/-- A12, A11 -/
theorem test_sub : look (one 0x8015 (regs [(0, 5), (1, 6), (15, 9)])) (fun t => (t.getV 0, t.getV 15)) = some (0xFF, 1) ∧
    look (one 0x8015 (regs [(0, 5), (1, 5), (15, 9)])) (fun t => (t.getV 0, t.getV 15)) = some (0, 0) := by decide
/-- A40: VF as destination keeps the difference; A46: VF as source -/
theorem test_sub_vf : look (one 0x8F15 (regs [(15, 3), (1, 1)])) (·.getV 15) = some 2 ∧
    look (one 0x80F5 (regs [(0, 0xFF), (15, 1)])) (fun t => (t.getV 0, t.getV 15)) = some (0xFE, 0) := by decide
/-- A18, A19 -/
theorem test_subn : look (one 0x8017 (regs [(0, 6), (1, 5), (15, 9)])) (fun t => (t.getV 0, t.getV 15)) = some (0xFF, 1) ∧
    look (one 0x8017 (regs [(0, 5), (1, 6), (15, 9)])) (fun t => (t.getV 0, t.getV 15)) = some (1, 0) := by decide
/-- A42, A47 -/
theorem test_subn_vf : look (one 0x8F17 (regs [(15, 3), (1, 1)])) (·.getV 15) = some 0xFE ∧
    look (one 0x80F7 (regs [(0, 0xFF), (15, 1)])) (fun t => (t.getV 0, t.getV 15)) = some (2, 1) := by decide
/-- A23 -/
theorem test_shr : look (one 0x8216 (regs [(2, 5), (1, 0xAA)])) (fun t => (t.getV 2, t.getV 1, t.getV 15)) = some (2, 0xAA, 1) := by decide
/-- A41 -/
theorem test_shr_vf : look (one 0x8F16 (regs [(15, 3), (1, 1)])) (·.getV 15) = some 1 := by decide
/-- A28 -/
theorem test_shl : look (one 0x821E (regs [(2, 0x81), (1, 0xAA)])) (fun t => (t.getV 2, t.getV 1, t.getV 15)) = some (2, 0xAA, 1) := by decide
/-- A43 -/
theorem test_shl_vf : look (one 0x8F1E (regs [(15, 3), (1, 1)])) (·.getV 15) = some 6 := by decide

/-! ### Keys (vectors Y) -/

/-- Y6, Y3 -/
theorem test_skp : look (one 0xE19E ((regs [(1, 0x15)]).withInputs 0x0020 0)) (·.pc) = some 0x204 ∧
    look (one 0xE19E ((regs [(1, 5)]).withInputs 0xFFDF 0)) (·.pc) = some 0x202 := by decide
/-- Y7, Y5 -/
theorem test_sknp : look (one 0xE1A1 ((regs [(1, 0xF5)]).withInputs 0x0020 0)) (·.pc) = some 0x202 ∧
    look (one 0xE1A1 ((regs [(1, 5)]).withInputs 0 0)) (·.pc) = some 0x204 := by decide
/-- Y10 -/
theorem test_key_wait : look (one 0xF40A ((regs [(4, 0xEE)]).withInputs 0 0)) (fun t => (t.getV 4, t.pc, t.report)) =
    some (0xEE, 0x200, .awaitingKey) := by decide
/-- Y14 -/
theorem test_key_lowest : look (one 0xF40A ((regs [(4, 0xEE)]).withInputs 0x0208 0)) (fun t => (t.getV 4, t.pc, t.report)) =
    some (3, 0x202, .normal) := by decide

/-! ### Timers, `I`, memory (vectors T, H) -/

/-- T1 -/
theorem test_ldVxDt : look (one 0xF307 ((regs [(3, 1)]).setDt 0x2A)) (fun t => (t.getV 3, t.dt)) = some (0x2A, 0x2A) := by decide
/-- T2 -/
theorem test_ldDtVx : look (one 0xF315 (regs [(3, 0x3C)])) (fun t => (t.dt, t.st)) = some (0x3C, 0) := by decide
/-- T3 -/
theorem test_ldStVx : look (one 0xF318 (regs [(3, 0x3C)])) (fun t => (t.dt, t.st)) = some (0, 0x3C) := by decide
/-- T8, T5 -/
theorem test_addI : look (one 0xF21E ((regs [(2, 0xFF)]).setI 0xFFFF)) (·.i) = some 0x00FE ∧
    look (one 0xF21E ((regs [(2, 1), (15, 7)]).setI 0x0FFF)) (fun t => (t.i, t.getV 15)) = some (0x1000, 7) := by decide
/-- T12: the low four bits of `V[2]`, and FONT_BASE as an unknown -/
theorem test_ldF : look (execLdF 2 (regs [(2, 0x1A)])) (·.i) = some (BitVec.ofNat 16 (Config.fontBase.val + 50)) := by rfl
/-- T18 -/
theorem test_ldB : look (one 0xF233 ((regs [(2, 156)]).setI 0x300))
    (fun t => (memGetList t.mem 0x300 3, t.i)) = some ([1, 5, 6], 0x300) := by decide
/-- T22, T25 -/
theorem test_ldB_bound : faultOf (one 0xF233 ((regs [(2, 255)]).setI 0x0FFE)) = some .memoryOutOfBounds ∧
    faultOf (one 0xF233 ((regs [(2, 255)]).setI 0xFFFF)) = some .memoryOutOfBounds := by decide
/-- T26 -/
theorem test_storeRegs : look (one 0xF355 ((regs [(0, 0x10), (1, 0x11), (2, 0x12), (3, 0x13), (4, 0x14)]).setI 0x400))
    (fun t => (memGetList t.mem 0x3FF 6, t.i)) = some ([0, 0x10, 0x11, 0x12, 0x13, 0], 0x400) := by decide
/-- T32 -/
theorem test_storeRegs_bound : faultOf (one 0xF155 ((regs [(0, 0x10)]).setI 0xFFF)) = some .memoryOutOfBounds := by decide
/-- T33 -/
theorem test_loadRegs : look (one 0xF365 ((bytes 0x400 [0xA0, 0xA1, 0xA2, 0xA3, 0xA4] (regs [(4, 0x14)])).setI 0x400))
    (fun t => ([t.getV 0, t.getV 3, t.getV 4], t.i)) = some ([0xA0, 0xA3, 0x14], 0x400) := by decide
/-- T35 -/
theorem test_loadRegs_bound : faultOf (one 0xFF65 ((regs []).setI 0xFF1)) = some .memoryOutOfBounds := by decide
/-- H1, H2, H4 -/
theorem test_tick : (fun s : State => (s.dt, s.st)) (tick ((regs []).setDt 5)) = (4, 0) ∧
    (fun s : State => (s.dt, s.st)) (tick (((regs []).setDt 1).setSt 1)) = (0, 0) ∧
    (fun s : State => (s.dt, s.st)) (tick ((regs []).setSt 0xFF)) = (0, 0xFE) := by decide

/-! ### Draw (vectors D) -/

/-- D3: the sprite 0xF0 at (126, 32) sets (62,0), (63,0), (0,0) and (1,0), not (61,0) nor (2,0). -/
theorem test_draw_wraps : look (one 0xD011 ((bytes 0x300 [0xF0] (regs [(0, 126), (1, 32), (15, 9)])).setI 0x300))
    (fun t => ([(0, 61), (0, 62), (0, 63), (0, 0), (0, 1), (0, 2)].map (fun p : Nat × Nat => pixelAt t.disp p.1 p.2), t.getV 15)) =
    some ([false, true, true, true, true, false], 0) := by decide
/-- D15: the coordinate is read from VF before VF is written. -/
theorem test_draw_reads_vf_first : look (one 0xDF11 ((bytes 0x300 [0x80] (regs [(15, 5), (1, 2)])).setI 0x300))
    (fun t => (pixelAt t.disp 2 5, pixelAt t.disp 2 6, t.getV 15)) = some (true, false, 0) := by decide
/-- D6: on the display that D5 leaves the same sprite collides. -/
theorem test_draw_collision : look (one 0xD011 (next (one 0xD011 ((bytes 0x300 [0xFF] (regs [(0, 8), (1, 4)])).setI 0x300)) (regs [])))
    (fun t => (pixelAt t.disp 4 8, pixelAt t.disp 4 15, t.getV 15)) = some (false, false, 1) := by decide
/-- D11, D9 -/
theorem test_draw_bound : faultOf (one 0xD012 ((bytes 0xFFF [0xFF] (regs [])).setI 0xFFF)) = some .memoryOutOfBounds ∧
    look (one 0xD010 ((regs [(15, 7)]).setI 0xFFFF)) (·.getV 15) = some 0 := by decide

/-! ### Reset, Load, placing a word -/

/-- Z3 -/
theorem test_reset_step : look (stepOp State.reset) (·.pc) = some 0x202 := by decide
/-- Z2 -/
theorem test_load : memGetList (hostOp (.load 0x200 [0x60, 0x05, 0x70, 0x03]) State.reset).2.mem 0x1FF 6 = [0, 0x60, 0x05, 0x70, 0x03, 0] := by
  decide
theorem test_withFetchWord : (State.reset.withFetchWord 16 0x6AFF).current = some (.ldImm 10 0xFF) := by decide

/-! ### Witnesses: for each statement with hypotheses, inputs that meet them, one for each clause at the edge of its range -/

/-- The state of vectors D5 to D8: a one-byte sprite at 0x300. -/
def spriteState (b : Byte) : State := (bytes 0x300 [b] (regs [(0, 8), (1, 4)])).setI 0x300

/-- The state of vectors T26 to T35: V[k] = 0x10 + k, and `I`. -/
def blockState (i : Word) : State := ({ regs [] with v := Vector.ofFn fun k => 0x10 + BitVec.ofNat 8 k.val } : State).setI i

/-- Program C before its store (95_test_vectors.md section 3). -/
def selfModify : State := atPc 0x206 ((regs [(0, 0x6A), (1, 0x77)]).setI 0x208)

theorem witness_EncodeInvertsDecode : decodeWord 0x8AB6 = some (.shr 10 11) := by decide

theorem witness_RowsSelectByMaskAndMatch : decodeWord 0x8AB6 = some (.shr 10 11) ∧
    (0x8AB6 : Word) &&& (Instr.shr 0 0).mask = (Instr.shr 0 0).matchBits ∧
    (0x8AB6 : Word) &&& (Instr.shr 3 4).mask = (Instr.shr 3 4).matchBits := by decide

/-- A word of each line of R65's table. -/
theorem witness_UnlistedWordsOnlyAdvancePc : isNoOpWord 0x0000 ∧ isNoOpWord 0x00EF ∧ isNoOpWord 0x5AB1 ∧ isNoOpWord 0x9ABF ∧
    isNoOpWord 0x8AB8 ∧ isNoOpWord 0x8ABF ∧ isNoOpWord 0xE19D ∧ isNoOpWord 0xFF66 := by
  unfold isNoOpWord
  refine ⟨?_, ?_, ?_, ?_, ?_, ?_, ?_, ?_⟩ <;> decide

theorem witness_StepRunsDecodedInstruction :
    (∀ s ∈ [placeWord (regs []) 0x8014, placeWord (atPc 0xFFE (regs [])) 0x8014],
      s.pc.toNat ≤ 0xFFE ∧ decodeWord (wordAt s.mem s.pc.toNat) = some (.addReg 0 1)) ∧
    decodeWord (wordAt (placeWord (regs []) 0x00EE).mem 0x200) = some .ret := by decide

theorem witness_StepRunsNoOpForUnlistedWord : ∀ s ∈ [regs [], atPc 0xFFE (regs [])],
    s.pc.toNat ≤ 0xFFE ∧ decodeWord (wordAt s.mem s.pc.toNat) = none := by decide

theorem witness_FetchIsBigEndianAndBounded : (atPc 0xFFF (regs [])).pc.toNat > 0xFFE ∧ (atPc 0xFFE (regs [])).pc.toNat ≤ 0xFFE := by decide

theorem witness_AwaitingKeyOnlyFromKeyWait :
    stepOp (placeWord (regs []) 0xF40A) = .next (placeWord (regs []) 0xF40A).await ∧ (placeWord (regs []) 0xF40A).await.report = .awaitingKey := by
  exact ⟨rfl, rfl⟩

theorem witness_InstructionsFaultExactlyAsListed :
    faultIn .ret (regs []) = some .stackUnderflow ∧ faultIn .ret (depth 1 (regs [])) = none ∧
    faultIn (.call 0) (depth 16 (regs [])) = some .stackOverflow ∧ faultIn (.call 0) (depth 15 (regs [])) = none ∧
    faultIn (.drw 0 0 15) (blockState 0xFF2) = some .memoryOutOfBounds ∧ faultIn (.drw 0 0 15) (blockState 0xFF1) = none ∧
    faultIn (.ldB 0) (blockState 0xFFE) = some .memoryOutOfBounds ∧ faultIn (.ldB 0) (blockState 0xFFD) = none ∧
    faultIn (.storeRegs 15) (blockState 0xFF1) = some .memoryOutOfBounds ∧ faultIn (.storeRegs 15) (blockState 0xFF0) = none ∧
    faultIn (.loadRegs 0) (blockState 0x1000) = some .memoryOutOfBounds ∧ faultIn (.loadRegs 0) (blockState 0xFFF) = none := by decide

theorem witness_FaultLeavesCellsAndRepeats :
    hostOp (.step 0 0) (placeWord (regs []) 0x00EE) = (.faulted .stackUnderflow, ((placeWord (regs []) 0x00EE).withInputs 0 0).closeLoad) := rfl

theorem witness_EveryStepKeepsInvariant : (placeWord (regs []) 0x2300).Inv ∧ ∃ t, step (placeWord (regs []) 0x2300) = .next t := by
  refine ⟨⟨by decide, by decide, fun k hk => absurd hk (Nat.not_lt_zero _)⟩, _, rfl⟩

theorem witness_RetPopsOrUnderflows : (regs []).sp.val = 0 ∧ (depth 1 (regs [])).sp.val = (0 : Fin 16).val + 1 ∧
    (depth 16 (regs [])).sp.val = (15 : Fin 16).val + 1 := by decide

theorem witness_JpSetsPc : (0x200 : Addr12).toNat = (regs []).pc.toNat ∧ (0xFFF : Addr12) = 0xFFF := by decide

theorem witness_CallPushesNextAddressOrOverflows : (depth 16 (regs [])).sp.val = 16 ∧ (regs []).sp.val = (0 : Fin 16).val ∧
    (depth 15 (regs [])).sp.val = (15 : Fin 16).val := by decide

/-- F9, and the least target that cannot be fetched. -/
theorem witness_JpV0AddsV0 : (next (execJpV0 0xFFF (regs [(0, 0xFF)])) (regs [])).pc.toNat > 0xFFE ∧
    (next (execJpV0 0xFFF (regs [])) (regs [])).pc.toNat > 0xFFE := by decide

/-- Sixteen calls from an empty stack, and one from a stack of fifteen. -/
theorem witness_CallsThenReturnsRestoreStack : List.replicate 16 (0x300 : Addr12) ≠ [] ∧
    (regs []).sp.val + (List.replicate 16 (0x300 : Addr12)).length ≤ 16 ∧ (depth 15 (regs [])).sp.val + [(0x300 : Addr12)].length ≤ 16 ∧
    (0 : Fin 16).val < (depth 15 (regs [])).sp.val ∧ (14 : Fin 16).val < (depth 15 (regs [])).sp.val := by decide

theorem witness_RegisterSkipsCompare : (1 : Nibble) ≠ 0 ∧ (15 : Nibble) ≠ 0 := by decide

theorem witness_SkipAtTopFaultsOnlyAtNextFetch :
    skipCond (.seImm 0 0) (atPc 0xFFC (regs [])) = some true ∧ (atPc 0xFFC (regs [])).pc = 0xFFC ∧
    skipCond (.seImm 0 0) (atPc 0xFFE (regs [])) = some true ∧ skipCond (.sknp 0) (atPc 0xFFE (regs [])) = some true ∧
    skipCond (.skp 0) (atPc 0xFFE (regs [])) = some false ∧ (atPc 0xFFE (regs [])).pc = 0xFFE := by decide

theorem witness_NormalAdvanceIsTwo :
    exec (.seImm 0 1) (regs []) = .next (regs []).advance ∧ (regs []).advance.report = .normal ∧ isTransfer (.seImm 0 1) = false ∧
    skipCond (.seImm 0 1) (regs []) ≠ some true ∧
    decodeWord 0x00E0 = none ∧ runWord 0x00E0 (atPc 0xFFFF (regs [])) = .next (atPc 0xFFFF (regs [])).advance := by
  exact ⟨rfl, rfl, rfl, by decide, by decide, rfl⟩

theorem witness_SkipAdvanceIsFour :
    skipCond (.seReg 3 3) (atPc 0xFFFD (regs [])) = some true ∧
    (∃ t, exec (.jp 0xFFF) (regs []) = .next t) ∧ (∃ t, exec (.call 0xFFF) (depth 15 (regs [])) = .next t) ∧
    (∃ t, exec (.jpV0 0xFFF) (regs [(0, 0xFF)]) = .next t) ∧ (∃ t, exec .ret (depth 16 (regs [])) = .next t) ∧
    (regs []).env.keys = 0 ∧ exec (.ldVxK 4) (regs []) = .next (regs []).await ∧
    hostOp (.step 0 0) (placeWord (regs []) 0x00EE) = (.faulted .stackUnderflow, ((placeWord (regs []) 0x00EE).withInputs 0 0).closeLoad) := by
  exact ⟨by decide, ⟨_, rfl⟩, ⟨_, rfl⟩, ⟨_, rfl⟩, ⟨_, rfl⟩, rfl, rfl, rfl⟩

/-- Of AddRegSumsWithCarry, SubtractionsFlagBorrow and ShiftsReportBitShiftedOut: a destination other than VF, at both ends. -/
theorem witness_DestinationNotVf : (0 : RegIx) ≠ 15 ∧ (14 : RegIx) ≠ 15 := by decide

/-- D9, D13 and D12: the empty sprite with `I` out of range, fifteen rows and one row up to the last byte. -/
theorem witness_DrawXorsSpriteOntoDisplay :
    (0 : Nibble).toNat = 0 ∧ (blockState 0xFF1).i.toNat + (15 : Nibble).toNat - 1 ≤ 0xFFF ∧ (blockState 0xFFF).i.toNat + (1 : Nibble).toNat - 1 ≤ 0xFFF := by
  decide

/-- A cell that a sprite covers, and one that it does not. -/
theorem witness_spriteBit : spriteBit [0xFF] 8 4 4 8 ∧ ¬ spriteBit [0xFF] 8 4 4 7 := by
  refine ⟨⟨0, 0, by decide, by decide, rfl, rfl, by decide⟩, ?_⟩
  rintro ⟨i, j, -, hj, -, h, -⟩
  omega

/-- D5 draws on a clear display, D6 again on what D5 left. -/
theorem witness_DrawFlagsCollision :
    (∃ t, exec (.drw 0 1 1) (spriteState 0xFF) = .next t) ∧
    (∃ t, exec (.drw 0 1 1) (next (exec (.drw 0 1 1) (spriteState 0xFF)) (regs [])) = .next t) ∧
    pixelAt (next (exec (.drw 0 1 1) (spriteState 0xFF)) (regs [])).disp 4 8 = true ∧
    pixelAt (spriteState 0xFF).disp 4 8 = false ∧
    memGetList (spriteState 0xFF).mem 0x300 1 = [0xFF] := by
  exact ⟨⟨_, rfl⟩, ⟨_, rfl⟩, by decide, by decide, by decide⟩

/-- D14, the two-row draw of D11, and D9. -/
theorem witness_DrawBoundsAndEmptySprite : (15 : Nibble).toNat > 0 ∧ (blockState 0xFF2).i.toNat + (15 : Nibble).toNat - 1 > 0xFFF ∧
    (blockState 0xFFF).i.toNat + (2 : Nibble).toNat - 1 > 0xFFF ∧ (0 : Nibble) = 0 := by decide

theorem witness_DrawTwiceRestoresDisplay :
    let s := spriteState 0xFF
    let t := next (exec (.drw 0 1 1) s) s
    exec (.drw 0 1 1) s = .next t ∧ t.mem = s.mem ∧ t.i = s.i ∧ t.getV 0 = s.getV 0 ∧ t.getV 1 = s.getV 1 ∧
      (∃ t', exec (.drw 0 1 1) t = .next t') ∧ ∀ (r : Fin 32) (c : Fin 64), pixelAt s.disp r.val c.val = false := by
  refine ⟨rfl, rfl, rfl, by decide, by decide, ⟨_, rfl⟩, fun r c => ?_⟩
  rw [pixelAt_of_lt _ r.isLt c.isLt]
  simp [spriteState, bytes, regs, State.reset]

/-- Y10, Y12 and Y13: no key, the least key, the greatest key. -/
theorem witness_KeyWaitLoadsLowestKey : (regs []).env.keys = 0 ∧
    (((regs []).withInputs 0x8001 0).env.keys.getLsbD 0 = true ∧ ∀ j, j < 0 → ((regs []).withInputs 0x8001 0).env.keys.getLsbD j = false) ∧
    (((regs []).withInputs 0x8000 0).env.keys.getLsbD 15 = true ∧ ∀ j, j < 15 → ((regs []).withInputs 0x8000 0).env.keys.getLsbD j = false) := by
  decide

theorem witness_LdStVxSetsSoundTimerNothingReads :
    (∃ t, exec (.ldStVx 0) (regs []) = .next t) ∧ (∃ t, exec (.ldImm 0 1) (regs []) = .next t) ∧
    exec .ret (regs []) = .fault .stackUnderflow := ⟨⟨_, rfl⟩, ⟨_, rfl⟩, rfl⟩

/-- T21 and T22. -/
theorem witness_LdBStoresDecimalDigits : (blockState 0xFFD).mem.wf = true ∧ (blockState 0xFFD).i.toNat + 2 ≤ 0xFFF ∧
    (blockState 0xFFE).i.toNat + 2 > 0xFFF := by decide

/-- T29 to T32, the same edges for `Fx65` (T34, T35). -/
theorem witness_StoreRegsWritesBlock : (blockState 0xFF0).mem.wf = true ∧ (blockState 0xFF0).i.toNat + (15 : RegIx).val ≤ 0xFFF ∧
    (blockState 0xFFF).i.toNat + (0 : RegIx).val ≤ 0xFFF ∧ (blockState 0xFF1).i.toNat + (15 : RegIx).val > 0xFFF ∧
    (blockState 0xFFF).i.toNat + (1 : RegIx).val > 0xFFF ∧ (15 : RegIx) ≤ 15 := by decide

/-- Program C (both bytes of the next word stored by `Fx55`); the same store one byte higher (only the low byte of the next word); the last
digit of an `Fx33` (only its high byte); and the highest word that can be fetched, which nothing stores to. -/
theorem witness_StoredBytesAreFetchedNext :
    (∀ s ∈ [selfModify, selfModify.setI 0x209], s.mem.wf = true ∧ exec (.storeRegs 1) s = .next (next (exec (.storeRegs 1) s) s) ∧
      (next (exec (.storeRegs 1) s) s).pc = 0x208) ∧
    exec (.ldB 0) (selfModify.setI 0x206) = .next (next (exec (.ldB 0) (selfModify.setI 0x206)) selfModify) ∧
    (next (exec (.ldB 0) (selfModify.setI 0x206)) selfModify).pc = 0x208 ∧
    exec (.ldImm 0 0) (atPc 0xFFC (regs [])) = .next (next (exec (.ldImm 0 0) (atPc 0xFFC (regs []))) (regs [])) ∧
    (next (exec (.ldImm 0 0) (atPc 0xFFC (regs []))) (regs [])).pc.toNat ≤ 0xFFE := by
  refine ⟨?_, rfl, rfl, rfl, by decide⟩
  intro s hs
  simp only [List.mem_cons, List.not_mem_nil, or_false] at hs
  rcases hs with rfl | rfl <;> exact ⟨rfl, rfl, rfl⟩

theorem witness_DisplayWrittenOnlyByDraw : ∃ t, stepOp (placeWord (spriteState 0xFF) 0xD011) = .next t ∧ 
    t.disp ≠ (placeWord (spriteState 0xFF) 0xD011).disp :=
  ⟨_, rfl, fun e => absurd (congrArg (fun d => pixelAt d 4 8) e) (by decide)⟩

/-- A store by `Fx33` (T20) and one by `Fx55` (T27), each at its first byte. -/
theorem witness_MemoryWrittenOnlyByStores :
    (∃ t, stepOp (placeWord ((regs [(2, 255)]).setI 0x300) 0xF233) = .next t ∧ 
      memGet t.mem 0x300 ≠ memGet (placeWord ((regs [(2, 255)]).setI 0x300) 0xF233).mem 0x300) ∧
    (∃ t, stepOp (placeWord (blockState 0x400) 0xF055) = .next t ∧ 
      memGet t.mem 0x400 ≠ memGet (placeWord (blockState 0x400) 0xF055).mem 0x400) ∧
    (placeWord (blockState 0x400) 0xF055).mem.wf = true :=
  ⟨⟨_, rfl, by decide⟩, ⟨_, rfl, by decide⟩, by decide⟩

theorem witness_SpecialRegistersWrittenOnlyAsListed :
    (∃ t, stepOp (placeWord (regs []) 0xA300) = .next t ∧ t.i ≠ (placeWord (regs []) 0xA300).i) ∧
    (∃ t, stepOp (placeWord (blockState 0) 0xF115) = .next t ∧ t.dt ≠ (placeWord (blockState 0) 0xF115).dt) ∧
    (∃ t, stepOp (placeWord (blockState 0) 0xF118) = .next t ∧ t.st ≠ (placeWord (blockState 0) 0xF118).st) ∧
    (∃ t, stepOp (placeWord (regs []) 0x2300) = .next t ∧ t.stack ≠ (placeWord (regs []) 0x2300).stack ∧
      t.sp ≠ (placeWord (regs []) 0x2300).sp) :=
  ⟨⟨_, rfl, by decide⟩, ⟨_, rfl, by decide⟩, ⟨_, rfl, by decide⟩, ⟨_, rfl, by decide, by decide⟩⟩

/-- A Step of a no-op; and a Tick in a state whose `pc` stands at an `Fx15`, where the hypothesis asks nothing. -/
theorem witness_TimersRiseOnlyWhenLoaded :
    (∀ keys rnd, HostOp.step 0 0 = .step keys rnd → ∀ x, (regs []).current ≠ some (.ldDtVx x) ∧ (regs []).current ≠ some (.ldStVx x)) ∧
    (placeWord (regs []) 0xF315).current = some (.ldDtVx 3) ∧
    (∀ keys rnd, HostOp.tick = .step keys rnd → ∀ x, (placeWord (regs []) 0xF315).current ≠ some (.ldDtVx x)) := by
  have hc : (regs []).current = none := by decide
  exact ⟨fun _ _ _ x => by rw [hc]; exact ⟨nofun, nofun⟩, by decide, fun _ _ h => nomatch h⟩

/-- Z5: the largest program, one byte more, and a Load after the first Step. -/
theorem witness_LoadWritesWholeOrNothing : (regs []).mem.wf = true ∧ (regs []).closeLoad.env.loadOpen = false ∧ (regs []).env.loadOpen = true ∧
    0x200 + (List.replicate 3584 (0 : Byte)).length ≤ 4096 ∧ 0x200 + (List.replicate 3585 (0 : Byte)).length > 4096 := by
  refine ⟨rfl, rfl, rfl, ?_, ?_⟩ <;> rw [List.length_replicate] <;> decide

theorem witness_StepRefinesHostOperations : (∃ t, step (regs []) = .next t) ∧ step (placeWord (regs []) 0x00EE) = .fault .stackUnderflow :=
  ⟨⟨_, rfl⟩, rfl⟩

end Sys2Proof.Tests
end

section
/-! SUPPORT. The advance of `pc` by 2 (R15): all that the instructions which are neither a control transfer nor a skip do to `pc`, and O27. -/

namespace Sys2Proof.Machine

/-- A meaning that ends in `done`, from a state whose `pc` is still that of `s`, moves `pc` by 2. -/
theorem pc_of_done {s u t : State} (h : done u = .next t) (hu : u.pc = s.pc) : t.pc = s.pc + 2 := by
  cases h
  rw [State.advance_pc, hu]

/-- The same for a meaning that has one fault beside it, in the form of the `_cases` lemmas of the memory blocks. -/
theorem pc_of_fault_or_done {P Q : Prop} {r : Result} {f : Fault} {s u t : State}
    (hr : (P ∧ r = .fault f) ∨ (Q ∧ r = .next u.advance)) (h : r = .next t) (hu : u.pc = s.pc) : t.pc = s.pc + 2 := by
  rcases hr with ⟨-, e⟩ | ⟨-, e⟩
  · cases e.symm.trans h
  · exact pc_of_done (e.symm.trans h) hu

/-- An instruction that is neither a control transfer nor a skip waits for a key or moves `pc` by 2. -/
theorem exec_awaits_or_advances {i : Instr} {s t : State} (h : exec i s = .next t) (htr : isTransfer i = false)
    (hsk : skipCond i s = none) : t = s.await ∨ t.pc = s.pc + 2 := by
  cases i with
  | ret | jp | call | jpV0 => cases htr
  | seImm | sneImm | seReg | sneReg | skp | sknp => cases hsk
  | ldVxK x =>
    rcases execLdVxK_cases x s with ⟨-, e⟩ | ⟨k, -, e⟩
    · cases e.symm.trans h
      exact .inl rfl
    · exact .inr (pc_of_done (e.symm.trans h) rfl)
  | drw x y n =>
    rcases execDrw_cases x y n s with ⟨-, e⟩ | ⟨-, c, -, -, e⟩
    · cases e.symm.trans h
    · exact .inr (pc_of_done (e.symm.trans h) rfl)
  | ldB x => exact .inr (pc_of_fault_or_done (execLdB_cases x s) h rfl)
  | storeRegs x => exact .inr (pc_of_fault_or_done (execStoreRegs_cases x s) h rfl)
  | loadRegs x => exact .inr (pc_of_fault_or_done (execLoadRegs_cases x s) h rfl)
  | ldImm | addImm | ldReg | orReg | andReg | xorReg | addReg | sub | shr | subn | shl | ldI | rnd | ldVxDt | ldDtVx | ldStVx | addI
    | ldF => exact .inr (pc_of_done h rfl)

/-- A skip whose condition is false moves `pc` by 2 (R15). -/
theorem pc_of_untaken_skip {i : Instr} {s t : State} (h : exec i s = .next t) (hc : skipCond i s = some false) :
    t.pc = s.pc + 2 := by
  rw [exec_of_skipCond hc] at h
  cases h
  rfl

/-- A word that matches no row of the opcode map moves `pc` by 2 (R65). -/
theorem pc_of_runWord_none {w : Word} {s t : State} (hd : decodeWord w = none) (h : runWord w s = .next t) :
    t.pc = s.pc + 2 := by
  rw [runWord_eq, hd] at h
  exact pc_of_done h rfl

/-- Settles O27: an instruction is an untaken skip, or it advances `pc` by 2 unless it waits for a key, which is no Normal completion. -/
theorem normalAdvanceIsTwo : Obligations.NormalAdvanceIsTwo := by
  refine ⟨fun i s t h hrep htr hsk => ?_, fun w s t hd h => ?_⟩
  · have hpc : t.pc = s.pc + 2 := by
      cases hc : skipCond i s with
      | some c =>
        cases c with
        | true => exact absurd hc hsk
        | false => exact pc_of_untaken_skip h hc
      | none =>
        rcases exec_awaits_or_advances h htr hc with rfl | hpc
        · cases hrep
        · exact hpc
    rw [hpc, pc_add_two_toNat]
  · rw [pc_of_runWord_none hd h, pc_add_two_toNat]

end Sys2Proof.Machine
end

section
/-! SUPPORT. The jump `1nnn` (R81): its word, its meaning, the jump to itself, the Step after a jump beyond the last word; and O20. -/

namespace Sys2Proof.Machine

/-- The family digit alone selects the jump (R64, R81). -/
theorem decodeWord_encNNN_jp (nnn : Addr12) : decodeWord (encNNN 0x1 nnn) = some (.jp nnn) := by
  simp [decodeWord]

/-- The jump always completes, and is the setting of `pc` alone. -/
theorem exec_jp (nnn : Addr12) (s : State) : exec (.jp nnn) s = .next (s.goto (zextAddr nnn)) := rfl

/-- A second setting of `pc` to the same place changes nothing at all, the result output included. -/
theorem State.goto_goto_same (s : State) (w : Word) : (s.goto w).goto w = s.goto w := rfl

/-- Setting `pc` to where it stands changes no cell of the hardware. -/
theorem State.sameCells_goto {s : State} {w : Word} (h : w = s.pc) : s.sameCells (s.goto w) :=
  ⟨rfl, rfl, rfl, h, rfl, rfl, rfl, rfl, rfl⟩

/-- A Step from above 0xFFE is the fetch fault (R46). -/
theorem stepOp_of_pc_gt {s : State} (h : s.pc.toNat > 0xFFE) : stepOp s = .fault .memoryOutOfBounds := by
  rcases stepOp_cases s with ⟨-, -, e⟩ | ⟨hle, -⟩ | ⟨hle, -⟩
  · exact e
  · exact absurd h (Nat.not_lt.2 hle)
  · exact absurd h (Nat.not_lt.2 hle)

/-- Settles O20: the jump is one setting of `pc`, so a jump to `pc` itself moves nothing, and the last address is above 0xFFE. -/
theorem jpSetsPc : Obligations.JpSetsPc := by
  intro nnn s
  refine ⟨decodeWord_encNNN_jp nnn, _, exec_jp nnn s, zextAddr_toNat nnn, rfl, Frame.goto s _, fun hself => ?_, fun hlast => ?_⟩
  · have hpc : zextAddr nnn = s.pc := BitVec.eq_of_toNat_eq ((zextAddr_toNat nnn).trans hself)
    exact ⟨State.sameCells_goto hpc, by rw [exec_jp, State.goto_goto_same]⟩
  · subst hlast
    exact stepOp_of_pc_gt (by rw [State.goto_pc, zextAddr_toNat]; decide)

end Sys2Proof.Machine
end

section
/-! SUPPORT. The skips with an immediate operand (R85, R86): their words, what any skip does on its condition, and O24. -/

namespace Sys2Proof.Machine

/-- The family digit alone selects `3xkk` (R64, R85). -/
theorem decodeWord_encXKK_seImm (x : RegIx) (kk : Byte) : decodeWord (encXKK 0x3 x kk) = some (.seImm x kk) := by
  simp [decodeWord]

/-- The family digit alone selects `4xkk` (R64, R86). -/
theorem decodeWord_encXKK_sneImm (x : RegIx) (kk : Byte) : decodeWord (encXKK 0x4 x kk) = some (.sneImm x kk) := by
  simp [decodeWord]

/-- The move of `pc` by a skip, as a number. -/
theorem pc_add_skip_toNat (w : Word) (c : Bool) :
    (w + if c then 4 else 2).toNat = (w.toNat + if c then 4 else 2) % 65536 := by
  cases c with
  | true => exact pc_add_four_toNat w
  | false => exact pc_add_two_toNat w

/-- Every skip completes Normal in every state, taken or not, and writes `pc` alone. The distance `d` is free in its form, so that
each skip's condition can be put as its own rule puts it. -/
theorem exec_skip_completes {i : Instr} {s : State} {c : Bool} {d : Nat} (h : skipCond i s = some c)
    (hd : (if c then 4 else 2) = d) :
    ∃ t, exec i s = .next t ∧ t.pc.toNat = (s.pc.toNat + d) % 65536 ∧ t.report = .normal ∧ Frame Part.isControl s t := by
  subst hd
  exact ⟨_, exec_of_skipCond h, pc_add_skip_toNat s.pc c, rfl, Frame.goto s _⟩

/-- Settles O24: both are skips on a comparison of two bytes, and two bytes are equal exactly when they are equal as numbers. -/
theorem immediateSkipsCompare : Obligations.ImmediateSkipsCompare := by
  intro x kk s
  have hbytes : (s.getV x).toNat = kk.toNat ↔ s.getV x = kk := BitVec.toNat_inj
  refine ⟨decodeWord_encXKK_seImm x kk, decodeWord_encXKK_sneImm x kk, exec_skip_completes rfl ?_, exec_skip_completes rfl ?_⟩
  · simp only [hbytes, decide_eq_true_eq]
  · simp only [hbytes, decide_eq_true_eq, ne_eq, ite_not]

end Sys2Proof.Machine
end

section
/-! SUPPORT. The loads and the add with an immediate operand (R90 to R92): their words, what completes with one register or with
`I` written, and O29 to O31. -/

namespace Sys2Proof.Machine

/-- The family digit alone selects `6xkk` (R64, R90). -/
theorem decodeWord_encXKK_ldImm (x : RegIx) (kk : Byte) : decodeWord (encXKK 0x6 x kk) = some (.ldImm x kk) := by
  simp [decodeWord]

/-- The family digit alone selects `7xkk` (R64, R91). -/
theorem decodeWord_encXKK_addImm (x : RegIx) (kk : Byte) : decodeWord (encXKK 0x7 x kk) = some (.addImm x kk) := by
  simp [decodeWord]

/-- The family digit alone selects `Annn` (R64, R92). -/
theorem decodeWord_encNNN_ldI (nnn : Addr12) : decodeWord (encNNN 0xA nnn) = some (.ldI nnn) := by
  simp [decodeWord]

theorem exec_ldImm (x : RegIx) (kk : Byte) (s : State) : exec (.ldImm x kk) s = .next (s.setV x kk).advance := rfl

theorem exec_addImm (x : RegIx) (kk : Byte) (s : State) :
    exec (.addImm x kk) s = .next (s.setV x (s.getV x + kk)).advance := rfl

theorem exec_ldI (nnn : Addr12) (s : State) : exec (.ldI nnn) s = .next (s.setI (zextAddr nnn)).advance := rfl

/-- The register written, VF like any other, holds the byte written after the advance. -/
theorem State.getV_setV_advance_same (s : State) (x : RegIx) (b : Byte) : (s.setV x b).advance.getV x = b := by
  rw [State.getV_advance, State.getV_setV, if_pos rfl]

/-- Writing `I` and advancing changes `I`, `pc` and the result output alone. -/
theorem Frame.setI_advance (s : State) (w : Word) :
    Frame (fun p => p = .addrReg ∨ p.isControl) s (s.setI w).advance := by
  refine ⟨fun p hp => ?_, rfl⟩
  cases p with
  | addrReg => exact absurd (.inl rfl) hp
  | pc => exact absurd (.inr (.inl rfl)) hp
  | report => exact absurd (.inr (.inr rfl)) hp
  | reg | byte | slot | sp | pixel | dt | st => rfl

/-- Settles O29: the load is one register write and the advance. -/
theorem ldImmLoads : Obligations.LdImmLoads := fun x kk s =>
  ⟨decodeWord_encXKK_ldImm x kk, _, exec_ldImm x kk s, State.getV_setV_advance_same s x kk, pc_add_two_toNat s.pc, rfl,
    Frame.setV_advance s x kk⟩

/-- Settles O30: a byte sum is the sum modulo 256, and reducing the first sum before the second addition changes nothing. -/
theorem addImmWrapsWithoutFlag : Obligations.AddImmWrapsWithoutFlag := by
  intro x kk s
  refine ⟨decodeWord_encXKK_addImm x kk, _, exec_addImm x kk s, ?_, pc_add_two_toNat s.pc, rfl, Frame.setV_advance s x _,
    fun kk' => ⟨_, exec_addImm x kk' _, ?_⟩⟩
  · rw [State.getV_setV_advance_same, BitVec.toNat_add]
  · rw [State.getV_setV_advance_same, State.getV_setV_advance_same, BitVec.toNat_add, BitVec.toNat_add, Nat.mod_add_mod]

/-- Settles O31: the address is extended with zeros to the width of `I`, which keeps its value. -/
theorem ldISetsAddressRegister : Obligations.LdISetsAddressRegister := fun nnn s =>
  ⟨decodeWord_encNNN_ldI nnn, _, exec_ldI nnn s, zextAddr_toNat nnn, pc_add_two_toNat s.pc, rfl,
    Frame.setI_advance s (zextAddr nnn)⟩

end Sys2Proof.Machine
end

section
/-! SUPPORT. The logic instructions `8xy0` to `8xy3` (R95 to R98): their words, their meanings, what completes with one register
computed bit by bit, and O33. -/

namespace Sys2Proof.Machine

/-- The family digit 8 hands the word to the second level, which reads its low nibble (R64). -/
theorem decodeWord_encXYN_family8 (x y : RegIx) (n : Nibble) :
    decodeWord (encXYN 0x8 x y n) = decodeFamily8 (encXYN 0x8 x y n) := by
  simp [decodeWord]

theorem decodeWord_encXYN_ldReg (x y : RegIx) : decodeWord (encXYN 0x8 x y 0) = some (.ldReg x y) := by
  rw [decodeWord_encXYN_family8]
  simp [decodeFamily8]

theorem decodeWord_encXYN_orReg (x y : RegIx) : decodeWord (encXYN 0x8 x y 1) = some (.orReg x y) := by
  rw [decodeWord_encXYN_family8]
  simp [decodeFamily8]

theorem decodeWord_encXYN_andReg (x y : RegIx) : decodeWord (encXYN 0x8 x y 2) = some (.andReg x y) := by
  rw [decodeWord_encXYN_family8]
  simp [decodeFamily8]

theorem decodeWord_encXYN_xorReg (x y : RegIx) : decodeWord (encXYN 0x8 x y 3) = some (.xorReg x y) := by
  rw [decodeWord_encXYN_family8]
  simp [decodeFamily8]

theorem exec_ldReg (x y : RegIx) (s : State) : exec (.ldReg x y) s = .next (s.setV x (s.getV y)).advance := rfl

theorem exec_orReg (x y : RegIx) (s : State) :
    exec (.orReg x y) s = .next (s.setV x (s.getV x ||| s.getV y)).advance := rfl

theorem exec_andReg (x y : RegIx) (s : State) :
    exec (.andReg x y) s = .next (s.setV x (s.getV x &&& s.getV y)).advance := rfl

theorem exec_xorReg (x y : RegIx) (s : State) :
    exec (.xorReg x y) s = .next (s.setV x (s.getV x ^^^ s.getV y)).advance := rfl

/-- An instruction whose meaning is one register write and the advance completes Normal and changes no other register (VF only where
it is `V[x]`); where the byte written is `op` of the old `V[x]` and `V[y]` bit by bit, so is `V[x]` after it. -/
theorem exec_setV_completes_bitwise {i : Instr} {s : State} {x y : RegIx} {r : Byte} (op : Bool → Bool → Bool)
    (h : exec i s = .next (s.setV x r).advance)
    (hr : ∀ k, r.getLsbD k = op ((s.getV x).getLsbD k) ((s.getV y).getLsbD k)) :
    ∃ t, exec i s = .next t ∧
      (∀ k, k < 8 → (t.getV x).getLsbD k = op ((s.getV x).getLsbD k) ((s.getV y).getLsbD k)) ∧
      t.pc.toNat = (s.pc.toNat + 2) % 65536 ∧ t.report = .normal ∧ Frame (fun q => q = .reg x ∨ q.isControl) s t := by
  refine ⟨_, h, fun k _ => ?_, pc_add_two_toNat s.pc, rfl, Frame.setV_advance s x r⟩
  rw [State.getV_setV_advance_same, hr]

/-- Settles O33: each of the four writes `V[x]` alone, with a byte operation that acts on each bit of the old operands by itself. -/
theorem logicInstructionsWriteOnlyVx : Obligations.LogicInstructionsWriteOnlyVx := by
  intro x y s
  refine ⟨decodeWord_encXYN_ldReg x y, decodeWord_encXYN_orReg x y, decodeWord_encXYN_andReg x y,
    decodeWord_encXYN_xorReg x y, ?_⟩
  simp only [List.forall_mem_cons]
  refine ⟨?ldReg, ?orReg, ?andReg, ?xorReg, List.forall_mem_nil _⟩
  case ldReg => exact exec_setV_completes_bitwise (fun _ b => b) (exec_ldReg x y s) fun _ => rfl
  case orReg => exact exec_setV_completes_bitwise (fun a b => a || b) (exec_orReg x y s) fun _ => BitVec.getLsbD_or
  case andReg => exact exec_setV_completes_bitwise (fun a b => a && b) (exec_andReg x y s) fun _ => BitVec.getLsbD_and
  case xorReg => exact exec_setV_completes_bitwise (fun a b => a != b) (exec_xorReg x y s) fun _ => BitVec.getLsbD_xor

end Sys2Proof.Machine
end

section
/-! SUPPORT. The timers read and set by instructions (R120 to R122): their words, their meanings, their frames, that no instruction
reads `ST`; and O43 to O45. -/

namespace Sys2Proof.Machine

/-! ### Words and meanings -/

/-- The family digit F hands the word to the second level, which reads its low byte (R64). -/
theorem decodeWord_encXKK_familyF (x : RegIx) (kk : Byte) :
    decodeWord (encXKK 0xF x kk) = decodeFamilyF (encXKK 0xF x kk) := by
  simp [decodeWord]

theorem decodeWord_encXKK_ldVxDt (x : RegIx) : decodeWord (encXKK 0xF x 0x07) = some (.ldVxDt x) := by
  rw [decodeWord_encXKK_familyF]
  simp [decodeFamilyF]

theorem decodeWord_encXKK_ldDtVx (x : RegIx) : decodeWord (encXKK 0xF x 0x15) = some (.ldDtVx x) := by
  rw [decodeWord_encXKK_familyF]
  simp [decodeFamilyF]

theorem decodeWord_encXKK_ldStVx (x : RegIx) : decodeWord (encXKK 0xF x 0x18) = some (.ldStVx x) := by
  rw [decodeWord_encXKK_familyF]
  simp [decodeFamilyF]

theorem exec_ldVxDt (x : RegIx) (s : State) : exec (.ldVxDt x) s = .next (s.setV x s.dt).advance := rfl

theorem exec_ldDtVx (x : RegIx) (s : State) : exec (.ldDtVx x) s = .next (s.setDt (s.getV x)).advance := rfl

theorem exec_ldStVx (x : RegIx) (s : State) : exec (.ldStVx x) s = .next (s.setSt (s.getV x)).advance := rfl

/-! ### Frames -/

/-- The advance at the end of a meaning adds `pc` and the result output to what was written before it. -/
theorem Frame.advance {W : Part → Prop} {s u : State} (h : Frame W s u) :
    Frame (fun p => W p ∨ p.isControl) s u.advance :=
  (h.weaken fun _ => .inl).trans ((Frame.goto u _).weaken fun _ => .inr)

theorem Frame.setDt (s : State) (b : Byte) : Frame (fun p => p = .dt) s (s.setDt b) := by
  refine ⟨fun p hp => ?_, rfl⟩
  cases p with
  | dt => exact absurd rfl hp
  | reg | byte | addrReg | pc | slot | sp | pixel | st | report => rfl

theorem Frame.setSt (s : State) (b : Byte) : Frame (fun p => p = .st) s (s.setSt b) := by
  refine ⟨fun p hp => ?_, rfl⟩
  cases p with
  | st => exact absurd rfl hp
  | reg | byte | addrReg | pc | slot | sp | pixel | dt | report => rfl

/-! ### The delay timer -/

/-- The delay timer after any number of Tick operations: down by one for each, with a floor of 0 (R26, R121). -/
theorem hostRun_ticks_dt_toNat (n : Nat) (s : State) :
    (hostRun (List.replicate n .tick) s).dt.toNat = s.dt.toNat - n := by
  rw [tickTimes_eq_iterate, tickTimes_dt, timerAfter_toNat]

/-- Settles O43: the load is one register write, of the byte `DT` holds, and the advance. -/
theorem ldVxDtReadsDelayTimer : Obligations.LdVxDtReadsDelayTimer := fun x s =>
  ⟨decodeWord_encXKK_ldVxDt x, _, exec_ldVxDt x s, State.getV_setV_advance_same s x s.dt, pc_add_two_toNat s.pc, rfl,
    Frame.setV_advance s x s.dt⟩

/-- Settles O44: the set is one write of `DT` and the advance, and the Ticks then count down from the byte written. -/
theorem ldDtVxSetsDelayTimer : Obligations.LdDtVxSetsDelayTimer := fun x s =>
  ⟨decodeWord_encXKK_ldDtVx x, _, exec_ldDtVx x s, rfl, pc_add_two_toNat s.pc, rfl, (Frame.setDt s _).advance,
    fun n => hostRun_ticks_dt_toNat n _⟩

/-! ### The sound timer: what each operation does from a state with another `ST` -/

/-- A result with its next state, if it has one, changed by `f`; a fault or refusal stays. -/
def mapNext (f : State → State) : Result → Result
  | .next t => .next (f t)
  | .fault e => .fault e
  | .refused r => .refused r

@[simp] theorem State.baseAddr_setSt (s : State) (b : Byte) : (s.setSt b).baseAddr = s.baseAddr := rfl
@[simp] theorem State.regBlock_setSt (s : State) (x : RegIx) (b : Byte) : (s.setSt b).regBlock x = s.regBlock x := rfl

theorem State.pop_setSt (s : State) (b : Byte) : (s.setSt b).pop = s.pop.map (Prod.map id (State.setSt · b)) := by
  rcases pop_cases s with ⟨h, e⟩ | ⟨h, e⟩
  · rw [e]
    exact dif_pos h
  · rw [e]
    exact dif_neg h

theorem State.push_setSt (s : State) (w : Word) (b : Byte) : (s.setSt b).push w = (s.push w).map (State.setSt · b) := by
  rcases push_cases s w with ⟨h, e⟩ | ⟨h, e⟩
  · rw [e]
    exact dif_neg (Nat.not_lt.2 (Nat.le_of_eq h.symm))
  · rw [e]
    exact dif_pos h

theorem skipCond_setSt (i : Instr) (s : State) (b : Byte) : skipCond i (s.setSt b) = skipCond i s := by
  cases i <;> rfl

theorem execRet_setSt (s : State) (b : Byte) : execRet (s.setSt b) = mapNext (State.setSt · b) (execRet s) := by
  rw [execRet, State.pop_setSt, execRet]
  cases s.pop <;> rfl

theorem execCall_setSt (nnn : Addr12) (s : State) (b : Byte) :
    execCall nnn (s.setSt b) = mapNext (State.setSt · b) (execCall nnn s) := by
  rw [execCall, State.push_setSt, execCall, State.setSt_pc]
  cases s.push (s.pc + 2) <;> rfl

/-- All six skips: the condition does not depend on `ST`, and the jump keeps it. -/
theorem exec_skip_setSt {i : Instr} {s : State} {c : Bool} (h : skipCond i s = some c) (b : Byte) :
    exec i (s.setSt b) = mapNext (State.setSt · b) (exec i s) := by
  rw [exec_of_skipCond h, exec_of_skipCond ((skipCond_setSt i s b).trans h)]
  rfl

theorem execLdVxK_setSt (x : RegIx) (s : State) (b : Byte) :
    execLdVxK x (s.setSt b) = mapNext (State.setSt · b) (execLdVxK x s) := by
  simp only [execLdVxK, State.setSt_env]
  cases lowestKey s.env.keys <;> rfl

theorem execDrw_setSt (x y : RegIx) (n : Nibble) (s : State) (b : Byte) :
    execDrw x y n (s.setSt b) = mapNext (State.setSt · b) (execDrw x y n s) := by
  simp only [execDrw, State.setSt_mem, State.setSt_i]
  cases memRead s.mem s.i.toNat n.toNat <;> rfl

theorem execLdB_setSt (x : RegIx) (s : State) (b : Byte) :
    execLdB x (s.setSt b) = mapNext (State.setSt · b) (execLdB x s) := by
  simp only [execLdB, State.baseAddr_setSt, State.setSt_mem, State.getV_setSt]
  cases memWrite s.mem s.baseAddr (decimalDigits (s.getV x)) <;> rfl

theorem execStoreRegs_setSt (x : RegIx) (s : State) (b : Byte) :
    execStoreRegs x (s.setSt b) = mapNext (State.setSt · b) (execStoreRegs x s) := by
  simp only [execStoreRegs, State.baseAddr_setSt, State.setSt_mem, State.regBlock_setSt]
  cases memWrite s.mem s.baseAddr (s.regBlock x) <;> rfl

theorem execLoadRegs_setSt (x : RegIx) (s : State) (b : Byte) :
    execLoadRegs x (s.setSt b) = mapNext (State.setSt · b) (execLoadRegs x s) := by
  rw [execLoadRegs, State.baseAddr_setSt, execLoadRegs]
  split <;> rfl

/-- From a state with another `ST` an instruction gives the same result, or the same but for `ST`: the first where it writes `ST`
(only `Fx18`), the second where it does not. -/
theorem exec_setSt (i : Instr) (s : State) (b : Byte) :
    exec i (s.setSt b) = exec i s ∨ exec i (s.setSt b) = mapNext (State.setSt · b) (exec i s) := by
  cases i with
  | ldStVx => exact .inl rfl
  | ret => exact .inr (execRet_setSt s b)
  | call nnn => exact .inr (execCall_setSt nnn s b)
  | seImm | sneImm | seReg | sneReg | skp | sknp => exact .inr (exec_skip_setSt rfl b)
  | ldVxK x => exact .inr (execLdVxK_setSt x s b)
  | drw x y n => exact .inr (execDrw_setSt x y n s b)
  | ldB x => exact .inr (execLdB_setSt x s b)
  | storeRegs x => exact .inr (execStoreRegs_setSt x s b)
  | loadRegs x => exact .inr (execLoadRegs_setSt x s b)
  | jp | ldImm | addImm | ldReg | orReg | andReg | xorReg | addReg | sub | shr | subn | shl | ldI | jpV0 | rnd | ldVxDt | ldDtVx
    | addI | ldF => exact .inr rfl

/-- Settles O45: the set is one write of `ST` and the advance; each instruction carries another value of `ST` along or overwrites it. -/
theorem ldStVxSetsSoundTimerNothingReads : Obligations.LdStVxSetsSoundTimerNothingReads := by
  refine ⟨fun x s => ?_, fun i s t b h => ?_, fun i s b f h => ?_⟩
  · exact ⟨decodeWord_encXKK_ldStVx x, _, exec_ldStVx x s, rfl, pc_add_two_toNat s.pc, rfl, (Frame.setSt s _).advance⟩
  · rcases exec_setSt i s b with e | e
    · exact .inl (e.trans h)
    · exact .inr (by rw [e, h, mapNext])
  · rcases exec_setSt i s b with e | e
    · exact e.trans h
    · rw [e, h, mapNext]

end Sys2Proof.Machine
end

section
/-! SUPPORT. Decoding and encoding are inverse of each other (R64, R66), the rows of the opcode map as masks, the words of no row
(R65); and O1 to O5. -/

namespace Sys2Proof.Machine

/-! ### From an instruction to its word and back -/

/-- Each encoded word has the digits that the dispatch tests, and the fields of its operands (R62, R64). -/
theorem decodeWord_encode (i : Instr) : decodeWord (encode i) = some i := by
  cases i with
  | ret => rfl
  | jp | call | ldI | jpV0 => simp [encode, decodeWord]
  | seImm | sneImm | ldImm | addImm | rnd | drw => simp [encode, decodeWord]
  | seReg | sneReg => simp [encode, decodeWord]
  | ldReg | orReg | andReg | xorReg | addReg | sub | shr | subn | shl => simp [encode, decodeWord, decodeFamily8]
  | skp | sknp => simp [encode, decodeWord, decodeFamilyE]
  | ldVxDt | ldVxK | ldDtVx | ldStVx | addI | ldF | ldB | storeRegs | loadRegs =>
    simp [encode, decodeWord, decodeFamilyF]

/-- Settles O1: the two bytes put together are the word again, and the word decodes to its instruction. -/
theorem decodeInvertsEncode : Obligations.DecodeInvertsEncode := fun i => by
  rw [decodeBytes_hi_lo, decodeWord_encode]

/-! ### From a word to its instruction and back -/

/-- The family digit that is none of the others. -/
theorem eq_F_of_ne_others (f : Nibble) (h0 : f ≠ 0x0) (h1 : f ≠ 0x1) (h2 : f ≠ 0x2) (h3 : f ≠ 0x3) (h4 : f ≠ 0x4)
    (h5 : f ≠ 0x5) (h6 : f ≠ 0x6) (h7 : f ≠ 0x7) (h8 : f ≠ 0x8) (h9 : f ≠ 0x9) (hA : f ≠ 0xA) (hB : f ≠ 0xB) (hC : f ≠ 0xC)
    (hD : f ≠ 0xD) (hE : f ≠ 0xE) : f = 0xF := by bv_omega

theorem encNNN_of_family {w : Word} {f : Nibble} (hf : Word.family w = f) : encNNN f (Word.nnnField w) = w := by
  rw [← hf, encNNN_fields]

theorem encXKK_of_family {w : Word} {f : Nibble} (hf : Word.family w = f) :
    encXKK f (Word.xField w) (Word.kkField w) = w := by
  rw [← hf, encXKK_fields]

theorem encXYN_of_family {w : Word} {f : Nibble} (hf : Word.family w = f) :
    encXYN f (Word.xField w) (Word.yField w) (Word.nField w) = w := by
  rw [← hf, encXYN_fields]

theorem encXKK_of_kkField {w : Word} {f : Nibble} {kk : Byte} (hf : Word.family w = f) (hk : Word.kkField w = kk) :
    encXKK f (Word.xField w) kk = w := by
  rw [← hk, encXKK_of_family hf]

theorem encXYN_of_nField {w : Word} {f n : Nibble} (hf : Word.family w = f) (hn : Word.nField w = n) :
    encXYN f (Word.xField w) (Word.yField w) n = w := by
  rw [← hn, encXYN_of_family hf]

theorem encode_of_decodeFamily0 {w : Word} {i : Instr} (h : decodeFamily0 w = some i) : encode i = w := by
  unfold decodeFamily0 at h
  split at h
  next hw => cases h; exact hw.symm
  next => cases h

theorem encode_of_decodeFamily8 {w : Word} {i : Instr} (hf : Word.family w = 0x8) (h : decodeFamily8 w = some i) :
    encode i = w := by
  unfold decodeFamily8 at h
  split at h <;> cases h <;> exact encXYN_of_nField hf ‹_›

theorem encode_of_decodeFamilyE {w : Word} {i : Instr} (hf : Word.family w = 0xE) (h : decodeFamilyE w = some i) :
    encode i = w := by
  unfold decodeFamilyE at h
  split at h <;> cases h <;> exact encXKK_of_kkField hf ‹_›

theorem encode_of_decodeFamilyF {w : Word} {i : Instr} (hf : Word.family w = 0xF) (h : decodeFamilyF w = some i) :
    encode i = w := by
  unfold decodeFamilyF at h
  split at h <;> cases h <;> exact encXKK_of_kkField hf ‹_›

/-- A word of one of the two families whose low digit is fixed as 0 (R87, R88). -/
theorem encode_of_lowDigit_zero {w : Word} {f : Nibble} {i j : Instr} (hf : Word.family w = f)
    (hj : encode j = encXYN f (Word.xField w) (Word.yField w) 0x0)
    (h : (if Word.nField w = 0x0#4 then some j else none) = some i) : encode i = w := by
  split at h
  next hn => cases h; exact hj.trans (encXYN_of_nField hf hn)
  next => cases h

/-- Every digit of a word that decodes is fixed by its row or kept in a field. -/
theorem encode_of_decodeWord {w : Word} {i : Instr} (h : decodeWord w = some i) : encode i = w := by
  unfold decodeWord at h
  split at h
  case h_1 => exact encode_of_decodeFamily0 h
  case h_2 hf | h_3 hf | h_11 hf | h_12 hf => cases h; exact encNNN_of_family hf
  case h_4 hf | h_5 hf | h_7 hf | h_8 hf | h_13 hf => cases h; exact encXKK_of_family hf
  case h_6 hf | h_10 hf => exact encode_of_lowDigit_zero hf rfl h
  case h_9 hf => exact encode_of_decodeFamily8 hf h
  case h_14 hf => cases h; exact encXYN_of_family hf
  case h_15 hf => exact encode_of_decodeFamilyE hf h
  case h_16 =>
    have hf := eq_F_of_ne_others (Word.family w) ‹_› ‹_› ‹_› ‹_› ‹_› ‹_› ‹_› ‹_› ‹_› ‹_› ‹_› ‹_› ‹_› ‹_› ‹_›
    exact encode_of_decodeFamilyF hf h

/-- Settles O2. -/
theorem encodeInvertsDecode : Obligations.EncodeInvertsDecode := fun _ _ h => encode_of_decodeWord h

/-! ### The rows as masks (R66) -/

/-- The encoded word selects the row of its instruction: the per-instruction facts of Laws/PerInstr.lean, collected. -/
theorem encode_and_mask (i : Instr) : encode i &&& i.mask = i.matchBits := by
  cases i with
  | ret => exact Laws.RowMatch.ret
  | jp nnn => exact Laws.RowMatch.jp nnn
  | call nnn => exact Laws.RowMatch.call nnn
  | seImm x kk => exact Laws.RowMatch.seImm x kk
  | sneImm x kk => exact Laws.RowMatch.sneImm x kk
  | seReg x y => exact Laws.RowMatch.seReg x y
  | ldImm x kk => exact Laws.RowMatch.ldImm x kk
  | addImm x kk => exact Laws.RowMatch.addImm x kk
  | ldReg x y => exact Laws.RowMatch.ldReg x y
  | orReg x y => exact Laws.RowMatch.orReg x y
  | andReg x y => exact Laws.RowMatch.andReg x y
  | xorReg x y => exact Laws.RowMatch.xorReg x y
  | addReg x y => exact Laws.RowMatch.addReg x y
  | sub x y => exact Laws.RowMatch.sub x y
  | shr x y => exact Laws.RowMatch.shr x y
  | subn x y => exact Laws.RowMatch.subn x y
  | shl x y => exact Laws.RowMatch.shl x y
  | sneReg x y => exact Laws.RowMatch.sneReg x y
  | ldI nnn => exact Laws.RowMatch.ldI nnn
  | jpV0 nnn => exact Laws.RowMatch.jpV0 nnn
  | rnd x kk => exact Laws.RowMatch.rnd x kk
  | drw x y n => exact Laws.RowMatch.drw x y n
  | skp x => exact Laws.RowMatch.skp x
  | sknp x => exact Laws.RowMatch.sknp x
  | ldVxDt x => exact Laws.RowMatch.ldVxDt x
  | ldVxK x => exact Laws.RowMatch.ldVxK x
  | ldDtVx x => exact Laws.RowMatch.ldDtVx x
  | ldStVx x => exact Laws.RowMatch.ldStVx x
  | addI x => exact Laws.RowMatch.addI x
  | ldF x => exact Laws.RowMatch.ldF x
  | ldB x => exact Laws.RowMatch.ldB x
  | storeRegs x => exact Laws.RowMatch.storeRegs x
  | loadRegs x => exact Laws.RowMatch.loadRegs x

/-- The mask 0xF000 keeps the family digit. -/
theorem family_of_mask_nnn {w : Word} {f : Nibble} (h : w &&& 0xF000 = encNNN f 0) : Word.family w = f := by
  rw [← encNNN_fields w, Laws.RowMatch.mask_nnn] at h
  simpa using congrArg Word.family h

/-- The mask 0xF00F keeps the family digit and the low digit. -/
theorem fields_of_mask_xyn {w : Word} {f n : Nibble} (h : w &&& 0xF00F = encXYN f 0 0 n) :
    Word.family w = f ∧ Word.nField w = n := by
  rw [← encXYN_fields w, Laws.RowMatch.mask_xyn] at h
  exact ⟨by simpa using congrArg Word.family h, by simpa using congrArg Word.nField h⟩

/-- The mask 0xF0FF keeps the family digit and the low byte. -/
theorem fields_of_mask_xkk {w : Word} {f : Nibble} {kk : Byte} (h : w &&& 0xF0FF = encXKK f 0 kk) :
    Word.family w = f ∧ Word.kkField w = kk := by
  rw [← encXKK_fields w, Laws.RowMatch.mask_xkk] at h
  exact ⟨by simpa using congrArg Word.family h, by simpa using congrArg Word.kkField h⟩

theorem encNNN_of_mask {w : Word} {f : Nibble} (h : w &&& 0xF000 = encNNN f 0) : encNNN f (Word.nnnField w) = w :=
  encNNN_of_family (family_of_mask_nnn h)

theorem encXKK_of_mask {w : Word} {f : Nibble} (h : w &&& 0xF000 = encNNN f 0) :
    encXKK f (Word.xField w) (Word.kkField w) = w :=
  encXKK_of_family (family_of_mask_nnn h)

theorem encXYN_of_mask {w : Word} {f n : Nibble} (h : w &&& 0xF00F = encXYN f 0 0 n) :
    encXYN f (Word.xField w) (Word.yField w) n = w :=
  encXYN_of_nField (fields_of_mask_xyn h).1 (fields_of_mask_xyn h).2

theorem encXFF_of_mask {w : Word} {f : Nibble} {kk : Byte} (h : w &&& 0xF0FF = encXKK f 0 kk) :
    encXKK f (Word.xField w) kk = w :=
  encXKK_of_kkField (fields_of_mask_xkk h).1 (fields_of_mask_xkk h).2

/-- A word that matches the row of `i` is the word of an instruction of that row: the row's constructor, with the word's fields. -/
theorem exists_encode_of_mask {w : Word} {i : Instr} (h : w &&& i.mask = i.matchBits) :
    ∃ j, encode j = w ∧ j.mask = i.mask ∧ j.matchBits = i.matchBits := by
  cases i with
  | ret => exact ⟨.ret, h.symm.trans BitVec.and_allOnes, rfl, rfl⟩
  | jp => exact ⟨.jp _, encNNN_of_mask h, rfl, rfl⟩
  | call => exact ⟨.call _, encNNN_of_mask h, rfl, rfl⟩
  | seImm => exact ⟨.seImm _ _, encXKK_of_mask h, rfl, rfl⟩
  | sneImm => exact ⟨.sneImm _ _, encXKK_of_mask h, rfl, rfl⟩
  | seReg => exact ⟨.seReg _ _, encXYN_of_mask h, rfl, rfl⟩
  | ldImm => exact ⟨.ldImm _ _, encXKK_of_mask h, rfl, rfl⟩
  | addImm => exact ⟨.addImm _ _, encXKK_of_mask h, rfl, rfl⟩
  | ldReg => exact ⟨.ldReg _ _, encXYN_of_mask h, rfl, rfl⟩
  | orReg => exact ⟨.orReg _ _, encXYN_of_mask h, rfl, rfl⟩
  | andReg => exact ⟨.andReg _ _, encXYN_of_mask h, rfl, rfl⟩
  | xorReg => exact ⟨.xorReg _ _, encXYN_of_mask h, rfl, rfl⟩
  | addReg => exact ⟨.addReg _ _, encXYN_of_mask h, rfl, rfl⟩
  | sub => exact ⟨.sub _ _, encXYN_of_mask h, rfl, rfl⟩
  | shr => exact ⟨.shr _ _, encXYN_of_mask h, rfl, rfl⟩
  | subn => exact ⟨.subn _ _, encXYN_of_mask h, rfl, rfl⟩
  | shl => exact ⟨.shl _ _, encXYN_of_mask h, rfl, rfl⟩
  | sneReg => exact ⟨.sneReg _ _, encXYN_of_mask h, rfl, rfl⟩
  | ldI => exact ⟨.ldI _, encNNN_of_mask h, rfl, rfl⟩
  | jpV0 => exact ⟨.jpV0 _, encNNN_of_mask h, rfl, rfl⟩
  | rnd => exact ⟨.rnd _ _, encXKK_of_mask h, rfl, rfl⟩
  | drw => exact ⟨.drw _ _ _, encXYN_of_family (family_of_mask_nnn h), rfl, rfl⟩
  | skp => exact ⟨.skp _, encXFF_of_mask h, rfl, rfl⟩
  | sknp => exact ⟨.sknp _, encXFF_of_mask h, rfl, rfl⟩
  | ldVxDt => exact ⟨.ldVxDt _, encXFF_of_mask h, rfl, rfl⟩
  | ldVxK => exact ⟨.ldVxK _, encXFF_of_mask h, rfl, rfl⟩
  | ldDtVx => exact ⟨.ldDtVx _, encXFF_of_mask h, rfl, rfl⟩
  | ldStVx => exact ⟨.ldStVx _, encXFF_of_mask h, rfl, rfl⟩
  | addI => exact ⟨.addI _, encXFF_of_mask h, rfl, rfl⟩
  | ldF => exact ⟨.ldF _, encXFF_of_mask h, rfl, rfl⟩
  | ldB => exact ⟨.ldB _, encXFF_of_mask h, rfl, rfl⟩
  | storeRegs => exact ⟨.storeRegs _, encXFF_of_mask h, rfl, rfl⟩
  | loadRegs => exact ⟨.loadRegs _, encXFF_of_mask h, rfl, rfl⟩

/-- A word that matches the row of `i` decodes to an instruction of that row. -/
theorem decodeWord_of_mask {w : Word} {i : Instr} (h : w &&& i.mask = i.matchBits) :
    ∃ j, decodeWord w = some j ∧ j.mask = i.mask ∧ j.matchBits = i.matchBits := by
  obtain ⟨j, rfl, hrow⟩ := exists_encode_of_mask h
  exact ⟨j, decodeWord_encode j, hrow⟩

/-- Settles O3: a word that decodes is the word of its instruction; and it decodes to one instruction only, so it has one row. -/
theorem rowsSelectByMaskAndMatch : Obligations.RowsSelectByMaskAndMatch := by
  refine ⟨fun w i h => ?_, fun w i h => decodeWord_of_mask h, fun i j w hi hj => ?_⟩
  · rw [← encode_of_decodeWord h, encode_and_mask]
  · obtain ⟨k, hk, -, hki⟩ := decodeWord_of_mask hi
    obtain ⟨l, hl, -, hlj⟩ := decodeWord_of_mask hj
    cases hk.symm.trans hl
    exact hki.symm.trans hlj

/-! ### The words of no row (R65) -/

/-- Settles O4: sixteen closed evaluations of the decoder. -/
theorem specWordsDecode : Obligations.SpecWordsDecode := by
  unfold Obligations.SpecWordsDecode
  decide

theorem decodeFamily0_eq_none_iff (w : Word) : decodeFamily0 w = none ↔ w ≠ 0x00EE := by
  simp [decodeFamily0]

/-- The low digits that select nothing in family 8 are those that are none of its nine (R64, R65). -/
theorem mem_family8_gaps (n : Nibble) (h0 : n ≠ 0x0) (h1 : n ≠ 0x1) (h2 : n ≠ 0x2) (h3 : n ≠ 0x3) (h4 : n ≠ 0x4) (h5 : n ≠ 0x5)
    (h6 : n ≠ 0x6) (h7 : n ≠ 0x7) (hE : n ≠ 0xE) : n ∈ ([0x8, 0x9, 0xA, 0xB, 0xC, 0xD, 0xF] : List Nibble) := by
  simp only [List.mem_cons, List.not_mem_nil, or_false]
  bv_omega

theorem decodeFamily8_eq_none_iff (w : Word) :
    decodeFamily8 w = none ↔ Word.nField w ∈ [0x8, 0x9, 0xA, 0xB, 0xC, 0xD, 0xF] := by
  unfold decodeFamily8
  split
  case h_10 => exact iff_of_true rfl (mem_family8_gaps _ ‹_› ‹_› ‹_› ‹_› ‹_› ‹_› ‹_› ‹_› ‹_›)
  all_goals next hn => simp [hn]

theorem decodeFamilyE_eq_none_iff (w : Word) : decodeFamilyE w = none ↔ Word.kkField w ∉ [0x9E, 0xA1] := by
  unfold decodeFamilyE
  split
  case h_3 h9E hA1 => exact iff_of_true rfl (by simpa using ⟨h9E, hA1⟩)
  all_goals next hk => simp [hk]

theorem decodeFamilyF_eq_none_iff (w : Word) :
    decodeFamilyF w = none ↔ Word.kkField w ∉ [0x07, 0x0A, 0x15, 0x18, 0x1E, 0x29, 0x33, 0x55, 0x65] := by
  unfold decodeFamilyF
  split
  case h_10 h07 h0A h15 h18 h1E h29 h33 h55 h65 =>
    exact iff_of_true rfl (by simpa using ⟨h07, h0A, h15, h18, h1E, h29, h33, h55, h65⟩)
  all_goals next hk => simp [hk]

/-- The words that decode to nothing are those of R65's table, family by family. -/
theorem decodeWord_eq_none_iff (w : Word) : decodeWord w = none ↔ isNoOpWord w := by
  unfold decodeWord
  split
  case h_1 hf => simp [isNoOpWord, hf, decodeFamily0_eq_none_iff]
  case h_6 hf | h_10 hf => simp [isNoOpWord, hf]
  case h_9 hf => simp [isNoOpWord, hf, decodeFamily8_eq_none_iff]
  case h_15 hf => simp [isNoOpWord, hf, decodeFamilyE_eq_none_iff]
  case h_16 =>
    have hf := eq_F_of_ne_others (Word.family w) ‹_› ‹_› ‹_› ‹_› ‹_› ‹_› ‹_› ‹_› ‹_› ‹_› ‹_› ‹_› ‹_› ‹_› ‹_›
    simp [isNoOpWord, hf, decodeFamilyF_eq_none_iff]
  all_goals next hf => simp [isNoOpWord, hf]

/-- Settles O5: a word of no row runs as the no-op, which is the advance alone. -/
theorem unlistedWordsOnlyAdvancePc : Obligations.UnlistedWordsOnlyAdvancePc := by
  refine fun w => ⟨decodeWord_eq_none_iff w, fun hw s => ⟨s.advance, ?_, pc_add_two_toNat s.pc, rfl, Frame.goto s _⟩⟩
  rw [runWord_eq, (decodeWord_eq_none_iff w).2 hw]
  rfl

end Sys2Proof.Machine
end

section
/-! SUPPORT. All that a Step can do, said once: the fault of its fetch or instruction (R132), or one of the few kinds of effect; the
facts about every Step that follow, and O10 to O14, O17, O52 to O54. -/

namespace Sys2Proof.Machine

/-! ### The effects of a completed Step -/

/-- The instructions that write `I` (R12). -/
def writesAddrReg : Instr → Bool
  | .ldI _ | .addI _ | .ldF _ => true
  | _ => false

/-- All that a Step which completes can do, with the instruction it runs (`none`: the no-op of R65). -/
inductive Effect (s : State) : Option Instr → State → Prop
  /-- the no-op, and a skip, taken or not -/
  | skip (i : Option Instr) (c : Bool) : Effect s i (s.goto (s.pc + if c then 4 else 2))
  /-- a jump, within reach of an address and an offset -/
  | jump (i : Instr) (w : Word) (hw : w.toNat ≤ 0x10FE) : Effect s i (s.goto w)
  | ret (k : Fin 16) (hk : s.sp.val = k.val + 1) :
      Effect s (some .ret) (({ s with sp := k.castSucc } : State).goto s.stack[k.val])
  | call (nnn : Addr12) (k : Fin 16) (hk : s.sp.val = k.val) :
      Effect s (some (.call nnn))
        (({ s with stack := s.stack.set k.val (s.pc + 2), sp := k.succ } : State).goto (zextAddr nnn))
  /-- new contents of the general registers, and nothing else -/
  | regs (i : Instr) (v : Vector Byte 16) : Effect s i ({ s with v := v } : State).advance
  | addrReg (i : Instr) (w : Word) (hi : writesAddrReg i = true) : Effect s i (s.setI w).advance
  | delayTimer (x : RegIx) : Effect s (some (.ldDtVx x)) (s.setDt (s.getV x)).advance
  | soundTimer (x : RegIx) : Effect s (some (.ldStVx x)) (s.setSt (s.getV x)).advance
  | draw (x y : RegIx) (n : Nibble) (d : Display) (b : Byte) :
      Effect s (some (.drw x y n)) ((s.setDisp d).setV vf b).advance
  | digits (x : RegIx) (h : s.i.toNat + 2 ≤ 0xFFF) :
      Effect s (some (.ldB x)) (s.setMem (memSetList s.mem s.i.toNat (decimalDigits (s.getV x)))).advance
  | block (x : RegIx) (h : s.i.toNat + x.val ≤ 0xFFF) :
      Effect s (some (.storeRegs x)) (s.setMem (memSetList s.mem s.i.toNat (s.regBlock x))).advance
  | await (x : RegIx) (h : s.env.keys = 0) : Effect s (some (.ldVxK x)) s.await

/-- An instruction raises the fault that R132 lists for it and the state, or completes with an effect of its own. -/
def Answers (i : Instr) (s : State) : Prop :=
  (∃ f, faultIn i s = some f ∧ exec i s = .fault f) ∨ (faultIn i s = none ∧ ∃ t, exec i s = .next t ∧ Effect s i t)

theorem Answers.of_effect {i : Instr} {s t : State} (hf : faultIn i s = none) (he : exec i s = .next t) (h : Effect s i t) :
    Answers i s := .inr ⟨hf, t, he, h⟩

/-- The six skips. -/
theorem answers_of_skipCond {i : Instr} {s : State} {c : Bool} (hf : faultIn i s = none) (h : skipCond i s = some c) :
    Answers i s := .of_effect hf (exec_of_skipCond h) (.skip i c)

/-- The instructions that write general registers alone. -/
theorem answers_of_regs {i : Instr} {s : State} {v : Vector Byte 16} (hf : faultIn i s = none)
    (h : exec i s = .next ({ s with v := v } : State).advance) : Answers i s := .of_effect hf h (.regs i v)

theorem zextAddr_le (nnn : Addr12) : (zextAddr nnn).toNat ≤ 0xFFF := by
  rw [zextAddr_toNat]
  omega

/-- The sum of R83 is exact: it fits the width of `pc`. -/
theorem jpV0Target_toNat (b : Byte) (nnn : Addr12) : (zextByte b + zextAddr nnn).toNat = b.toNat + nnn.toNat := by
  rw [BitVec.toNat_add, zextByte_toNat, zextAddr_toNat]
  omega

theorem jpV0Target_le (b : Byte) (nnn : Addr12) : (zextByte b + zextAddr nnn).toNat ≤ 0x10FE := by
  rw [jpV0Target_toNat]
  omega

theorem answers_ret (s : State) : Answers .ret s := by
  rcases execRet_cases s with ⟨h, e⟩ | ⟨h, k, hk, e⟩
  · exact .inl ⟨_, if_pos h, e⟩
  · exact .of_effect (if_neg h) e (.ret k hk)

theorem answers_call (nnn : Addr12) (s : State) : Answers (.call nnn) s := by
  rcases execCall_cases nnn s with ⟨h, e⟩ | ⟨h, k, hk, e⟩
  · exact .inl ⟨_, if_pos h, e⟩
  · exact .of_effect (if_neg h) e (.call nnn k hk)

theorem answers_ldVxK (x : RegIx) (s : State) : Answers (.ldVxK x) s := by
  rcases execLdVxK_cases x s with ⟨h, e⟩ | ⟨k, -, e⟩
  · exact .of_effect rfl e (.await x h)
  · exact answers_of_regs rfl e

theorem answers_drw (x y : RegIx) (n : Nibble) (s : State) : Answers (.drw x y n) s := by
  rcases execDrw_cases x y n s with ⟨h, e⟩ | ⟨h, c, -, -, e⟩
  · exact .inl ⟨_, if_pos (by omega), e⟩
  · exact .of_effect (if_neg (by omega)) e (.draw x y n _ _)

theorem answers_ldB (x : RegIx) (s : State) : Answers (.ldB x) s := by
  rcases execLdB_cases x s with ⟨h, e⟩ | ⟨h, e⟩
  · exact .inl ⟨_, if_pos h, e⟩
  · exact .of_effect (if_neg (Nat.not_lt.2 h)) e (.digits x h)

theorem answers_storeRegs (x : RegIx) (s : State) : Answers (.storeRegs x) s := by
  rcases execStoreRegs_cases x s with ⟨h, e⟩ | ⟨h, e⟩
  · exact .inl ⟨_, if_pos h, e⟩
  · exact .of_effect (if_neg (Nat.not_lt.2 h)) e (.block x h)

theorem answers_loadRegs (x : RegIx) (s : State) : Answers (.loadRegs x) s := by
  rcases execLoadRegs_cases x s with ⟨h, e⟩ | ⟨h, e⟩
  · exact .inl ⟨_, if_pos h, e⟩
  · exact .of_effect (if_neg (Nat.not_lt.2 h)) e (.regs _ _)

/-- All that an instruction can do, in any state. -/
theorem exec_answers (i : Instr) (s : State) : Answers i s := by
  cases i with
  | ret => exact answers_ret s
  | jp nnn => exact .of_effect rfl rfl (.jump _ _ (Nat.le_trans (zextAddr_le nnn) (by decide)))
  | call nnn => exact answers_call nnn s
  | jpV0 nnn => exact .of_effect rfl rfl (.jump _ _ (jpV0Target_le _ nnn))
  | seImm | sneImm | seReg | sneReg | skp | sknp => exact answers_of_skipCond rfl rfl
  | ldImm | addImm | ldReg | orReg | andReg | xorReg | addReg | sub | shr | subn | shl | rnd | ldVxDt =>
    exact answers_of_regs rfl rfl
  | ldI | addI | ldF => exact .of_effect rfl rfl (.addrReg _ _ rfl)
  | ldDtVx x => exact .of_effect rfl rfl (.delayTimer x)
  | ldStVx x => exact .of_effect rfl rfl (.soundTimer x)
  | ldVxK x => exact answers_ldVxK x s
  | drw x y n => exact answers_drw x y n s
  | ldB x => exact answers_ldB x s
  | storeRegs x => exact answers_storeRegs x s
  | loadRegs x => exact answers_loadRegs x s

theorem exec_effect {i : Instr} {s t : State} (h : exec i s = .next t) : Effect s i t := by
  rcases exec_answers i s with ⟨f, -, e⟩ | ⟨-, u, e, hu⟩
  · cases e.symm.trans h
  · cases e.symm.trans h
    exact hu

theorem exec_eq_fault_iff (i : Instr) (s : State) (f : Fault) : exec i s = .fault f ↔ faultIn i s = some f := by
  rcases exec_answers i s with ⟨g, hg, e⟩ | ⟨hg, t, e, -⟩
  · rw [e, hg, Host.Outcome.fault.injEq, Option.some.injEq]
  · simp [e, hg]

/-- Settles O12. -/
theorem instructionsFaultExactlyAsListed : Obligations.InstructionsFaultExactlyAsListed := by
  refine fun i s => ⟨exec_eq_fault_iff i s, fun h => ?_⟩
  rcases exec_answers i s with ⟨f, hf, -⟩ | ⟨-, t, e, -⟩
  · cases h.symm.trans hf
  · exact ⟨t, e⟩

/-! ### The Step -/

/-- The fault a Step ends in: that of the fetch, else that of its instruction (R132, R138). -/
def State.stepFault (s : State) : Option Fault :=
  if s.pc.toNat ≤ 0xFFE then s.current.bind (faultIn · s) else some .memoryOutOfBounds

/-- All that a Step can do, in any state: it faults, or completes with an effect of the instruction at `pc`. -/
theorem stepOp_answers (s : State) :
    (∃ f, s.stepFault = some f ∧ stepOp s = .fault f) ∨
      (s.stepFault = none ∧ s.pc.toNat ≤ 0xFFE ∧ ∃ t, stepOp s = .next t ∧ Effect s s.current t) := by
  rcases stepOp_cases s with ⟨hpc, -, e⟩ | ⟨hpc, i, -, hc, e⟩ | ⟨hpc, -, hc, e⟩
  · exact .inl ⟨_, if_neg (Nat.not_le.2 hpc), e⟩
  · have hf : s.stepFault = faultIn i s := by simp [State.stepFault, hpc, hc]
    rw [hf, hc, e]
    rcases exec_answers i s with h | ⟨hn, t, he⟩
    · exact .inl h
    · exact .inr ⟨hn, hpc, t, he⟩
  · exact .inr ⟨by simp [State.stepFault, hc, hpc], hpc, _, e, hc ▸ .skip none false⟩

theorem stepOp_effect {s t : State} (h : stepOp s = .next t) : s.pc.toNat ≤ 0xFFE ∧ Effect s s.current t := by
  rcases stepOp_answers s with ⟨f, -, e⟩ | ⟨-, hpc, u, e, hu⟩
  · cases e.symm.trans h
  · cases e.symm.trans h
    exact ⟨hpc, hu⟩

theorem stepOp_eq_fault_iff (s : State) (f : Fault) : stepOp s = .fault f ↔ s.stepFault = some f := by
  rcases stepOp_answers s with ⟨g, hg, e⟩ | ⟨hg, -, t, e, -⟩
  · rw [e, hg, Host.Outcome.fault.injEq, Option.some.injEq]
  · simp [e, hg]

/-- Settles O10: `step` answers as the Step operation does. -/
theorem stepAlwaysAnswers : Obligations.StepAlwaysAnswers := by
  intro s
  rcases stepOp_answers s with ⟨f, -, e⟩ | ⟨-, -, t, e, -⟩
  · exact .inr ⟨f, by rw [step_eq, e]⟩
  · exact .inl ⟨betweenSteps t, by rw [step_eq, e]⟩

/-- No fault of R132's table is UnimplementedInstruction (R136). -/
theorem faultIn_ne_unimplemented (i : Instr) (s : State) : faultIn i s ≠ some .unimplementedInstruction := by
  unfold faultIn
  split
  case h_7 => nofun
  all_goals split <;> nofun

/-- Settles O13: neither the fetch nor an instruction raises it. -/
theorem unimplementedInstructionNeverRaised : Obligations.UnimplementedInstructionNeverRaised := by
  intro s h
  have hs := (stepOp_eq_fault_iff s _).1 (step_fault h)
  unfold State.stepFault at hs
  split at hs
  · obtain ⟨i, -, hi⟩ := Option.bind_eq_some_iff.1 hs
    exact faultIn_ne_unimplemented i s hi
  · cases hs

/-- A fault does not depend on the inputs, the timers or the registers: only on the cells that the fetch and R132's table read. -/
theorem faultIn_congr {s t : State} (hsp : t.sp = s.sp) (hi : t.i = s.i) (i : Instr) : faultIn i t = faultIn i s := by
  unfold faultIn
  rw [hsp, hi]

theorem stepFault_congr {s t : State} (hmem : t.mem = s.mem) (hpc : t.pc = s.pc) (hsp : t.sp = s.sp) (hi : t.i = s.i) :
    t.stepFault = s.stepFault := by
  unfold State.stepFault State.current
  simp only [hmem, hpc, faultIn_congr hsp hi]

/-- A Step of the host that faults: the state is the one the Step began in. -/
theorem hostOp_step_eq_faulted_iff (s t : State) (keys : BitVec 16) (rnd : Byte) (f : Fault) :
    hostOp (.step keys rnd) s = (.faulted f, t) ↔ s.stepFault = some f ∧ t = (s.withInputs keys rnd).closeLoad := by
  have hs : ((s.withInputs keys rnd).closeLoad).stepFault = s.stepFault := stepFault_congr rfl rfl rfl rfl
  rw [← hs]
  rcases stepOp_answers (s.withInputs keys rnd).closeLoad with ⟨g, hg, e⟩ | ⟨hg, -, u, e, -⟩
  · simp [hostOp, e, hg, eq_comm]
  · simp [hostOp, e, hg]

theorem hostOp_step_faulted {s : State} {f : Fault} (h : s.stepFault = some f) (keys : BitVec 16) (rnd : Byte) :
    hostOp (.step keys rnd) s = (.faulted f, (s.withInputs keys rnd).closeLoad) :=
  (hostOp_step_eq_faulted_iff ..).2 ⟨h, rfl⟩

/-- Settles O14. -/
theorem faultLeavesCellsAndRepeats : Obligations.FaultLeavesCellsAndRepeats := by
  intro s t keys keys' rnd rnd' f h
  obtain ⟨hf, rfl⟩ := (hostOp_step_eq_faulted_iff ..).1 h
  have hstep : ((s.withInputs keys rnd).closeLoad).stepFault = some f := (stepFault_congr (s := s) rfl rfl rfl rfl).trans hf
  have htick : (tick (s.withInputs keys rnd).closeLoad).stepFault = some f :=
    (stepFault_congr (s := s) rfl rfl rfl rfl).trans hf
  exact ⟨⟨rfl, rfl, rfl, rfl, rfl, rfl, rfl, rfl, rfl⟩, congrArg Prod.fst (hostOp_step_faulted hstep keys' rnd'),
    congrArg Prod.fst (hostOp_step_faulted htick keys' rnd')⟩

/-! ### What every Step keeps -/

/-- Settles O11: of all effects only the waiting one reports AwaitingKey. -/
theorem awaitingKeyOnlyFromKeyWait : Obligations.AwaitingKeyOnlyFromKeyWait := by
  intro s t h hrep
  obtain ⟨-, he⟩ := stepOp_effect h
  generalize s.current = i at he ⊢
  cases he with
  | await x hk => exact ⟨⟨x, rfl⟩, hk, ⟨rfl, rfl, rfl, rfl, rfl, rfl, rfl, rfl, rfl⟩, rfl⟩
  | skip | jump | ret | call | regs | addrReg | delayTimer | soundTimer | draw | digits | block => cases hrep

/-- Settles O52: of all effects only the draw has another display. -/
theorem displayWrittenOnlyByDraw : Obligations.DisplayWrittenOnlyByDraw := by
  intro s t h hd
  obtain ⟨-, he⟩ := stepOp_effect h
  generalize s.current = i at he ⊢
  cases he with
  | draw x y n => exact ⟨x, y, n, rfl⟩
  | skip | jump | ret | call | regs | addrReg | delayTimer | soundTimer | digits | block | await => exact absurd rfl hd

/-- A byte that a write of a range changes lies in the range. -/
theorem mem_range_of_memSetList_ne {m : Memory} {a k : Nat} {bytes : List Byte} (h : m.wf = true)
    (hb : a + bytes.length ≤ memSize) (hne : memGet (memSetList m a bytes) k ≠ memGet m k) :
    a ≤ k ∧ k < a + bytes.length := by
  rw [memGet_memSetList bytes h hb] at hne
  exact Decidable.byContradiction fun hk => hne (if_neg hk)

@[simp] theorem decimalDigits_length (b : Byte) : (decimalDigits b).length = 3 := rfl

theorem digits_fit {s : State} (b : Byte) (h : s.i.toNat + 2 ≤ 0xFFF) :
    s.i.toNat + (decimalDigits b).length ≤ memSize := by
  rw [decimalDigits_length, memSize]
  omega

theorem regBlock_fit {s : State} {x : RegIx} (h : s.i.toNat + x.val ≤ 0xFFF) :
    s.i.toNat + (s.regBlock x).length ≤ memSize := by
  rw [regBlock_length, memSize]
  omega

/-- Settles O53: of all effects only the two stores have other memory, and they write their range alone. -/
theorem memoryWrittenOnlyByStores : Obligations.MemoryWrittenOnlyByStores := by
  intro s t a hwf h hne
  obtain ⟨-, he⟩ := stepOp_effect h
  generalize s.current = i at he ⊢
  cases he with
  | digits x hb =>
    have ha := mem_range_of_memSetList_ne hwf (digits_fit _ hb) hne
    rw [decimalDigits_length] at ha
    exact .inl ⟨x, rfl, by omega⟩
  | block x hb =>
    have ha := mem_range_of_memSetList_ne hwf (regBlock_fit hb) hne
    rw [regBlock_length] at ha
    exact .inr ⟨x, rfl, by omega⟩
  | skip | jump | ret | call | regs | addrReg | delayTimer | soundTimer | draw | await => exact absurd rfl hne

theorem writesAddrReg_eq_true_iff (i : Instr) :
    writesAddrReg i = true ↔ (∃ nnn, i = .ldI nnn) ∨ (∃ x, i = .addI x) ∨ (∃ x, i = .ldF x) := by
  cases i <;> simp [writesAddrReg]

theorem Effect.i_ne {s t : State} {i : Option Instr} (h : Effect s i t) (hne : t.i ≠ s.i) :
    (∃ nnn, i = some (.ldI nnn)) ∨ (∃ x, i = some (.addI x)) ∨ (∃ x, i = some (.ldF x)) := by
  cases h with
  | addrReg j w hj => simpa using (writesAddrReg_eq_true_iff j).1 hj
  | skip | jump | ret | call | regs | delayTimer | soundTimer | draw | digits | block | await => exact absurd rfl hne

theorem Effect.dt_ne {s t : State} {i : Option Instr} (h : Effect s i t) (hne : t.dt ≠ s.dt) :
    ∃ x, i = some (.ldDtVx x) := by
  cases h with
  | delayTimer x => exact ⟨x, rfl⟩
  | skip | jump | ret | call | regs | addrReg | soundTimer | draw | digits | block | await => exact absurd rfl hne

theorem Effect.st_ne {s t : State} {i : Option Instr} (h : Effect s i t) (hne : t.st ≠ s.st) :
    ∃ x, i = some (.ldStVx x) := by
  cases h with
  | soundTimer x => exact ⟨x, rfl⟩
  | skip | jump | ret | call | regs | addrReg | delayTimer | draw | digits | block | await => exact absurd rfl hne

theorem Effect.stack_ne {s t : State} {i : Option Instr} (h : Effect s i t) (hne : t.stack ≠ s.stack) :
    ∃ nnn, i = some (.call nnn) := by
  cases h with
  | call nnn => exact ⟨nnn, rfl⟩
  | skip | jump | ret | regs | addrReg | delayTimer | soundTimer | draw | digits | block | await => exact absurd rfl hne

theorem Effect.sp_ne {s t : State} {i : Option Instr} (h : Effect s i t) (hne : t.sp ≠ s.sp) :
    i = some .ret ∨ ∃ nnn, i = some (.call nnn) := by
  cases h with
  | ret => exact .inl rfl
  | call nnn => exact .inr ⟨nnn, rfl⟩
  | skip | jump | regs | addrReg | delayTimer | soundTimer | draw | digits | block | await => exact absurd rfl hne

/-- Settles O54. -/
theorem specialRegistersWrittenOnlyAsListed : Obligations.SpecialRegistersWrittenOnlyAsListed := by
  intro s t h
  obtain ⟨-, he⟩ := stepOp_effect h
  exact ⟨he.i_ne, he.dt_ne, he.st_ne, he.stack_ne, he.sp_ne⟩

/-! ### The invariant (R17, R40, R80, R82) -/

theorem Effect.mem_wf {s t : State} {i : Option Instr} (h : Effect s i t) (hwf : s.mem.wf = true) : t.mem.wf = true := by
  cases h with
  | digits x hb => exact memSetList_wf _ hwf (digits_fit _ hb)
  | block x hb => exact memSetList_wf _ hwf (regBlock_fit hb)
  | skip | jump | ret | call | regs | addrReg | delayTimer | soundTimer | draw | await => exact hwf

theorem pc_add_two_le {w : Word} (h : w.toNat ≤ 0xFFE) : (w + 2).toNat ≤ 0x1000 := by
  rw [pc_add_two_toNat]
  omega

theorem pc_add_skip_le {w : Word} (c : Bool) (h : w.toNat ≤ 0xFFE) : (w + if c then 4 else 2).toNat ≤ 0x10FE := by
  rw [pc_add_skip_toNat]
  split <;> omega

/-- Where the next instruction is fetched after a Step that completes: two or four bytes on, at a jump's target, or at a live return
address. -/
theorem Effect.pc_le {s t : State} {i : Option Instr} (h : Effect s i t) (hpc : s.pc.toNat ≤ 0xFFE)
    (hlive : ∀ k : Fin 16, k.val < s.sp.val → (s.stack[k.val]).toNat ≤ 0x1000) : t.pc.toNat ≤ 0x10FE := by
  have hadv : (s.pc + 2).toNat ≤ 0x10FE := pc_add_skip_le false hpc
  cases h with
  | skip c => exact pc_add_skip_le _ hpc
  | jump i w hw => exact hw
  | ret k hk => exact Nat.le_trans (hlive k (by omega)) (by decide)
  | call nnn => exact Nat.le_trans (zextAddr_le nnn) (by decide)
  | await => exact Nat.le_trans hpc (by decide)
  | regs | addrReg | delayTimer | soundTimer | draw | digits | block => exact hadv

/-- A return address that is live after a Step was live before, or is that of the instruction after the call. -/
theorem Effect.live_le {s t : State} {i : Option Instr} (h : Effect s i t) (hpc : s.pc.toNat ≤ 0xFFE)
    (hlive : ∀ k : Fin 16, k.val < s.sp.val → (s.stack[k.val]).toNat ≤ 0x1000) (k : Fin 16) (hk : k.val < t.sp.val) :
    (t.stack[k.val]).toNat ≤ 0x1000 := by
  cases h with
  | call nnn top htop =>
    simp only [State.goto_stack, State.goto_sp, Fin.val_succ, Vector.getElem_set] at hk ⊢
    split
    · exact pc_add_two_le hpc
    · exact hlive k (by omega)
  | ret top htop =>
    simp only [State.goto_sp, Fin.val_castSucc] at hk
    exact hlive k (by omega)
  | skip | jump | regs | addrReg | delayTimer | soundTimer | draw | digits | block | await => exact hlive k hk

/-- Settles O17: each part of the invariant is kept by every effect, and the host's move touches none of its cells. -/
theorem everyStepKeepsInvariant : Obligations.EveryStepKeepsInvariant := by
  rintro s t ⟨hwf, -, hlive⟩ h
  obtain ⟨u, hu, rfl⟩ := step_next h
  obtain ⟨hpc, he⟩ := stepOp_effect hu
  exact ⟨he.mem_wf hwf, he.pc_le hpc hlive, he.live_le hpc hlive⟩

end Sys2Proof.Machine
end

section
/-! SUPPORT. The call, the return and the jump with offset (R80, R82, R83), one after the other and nested (R84); and O19, O21 to O23. -/

namespace Sys2Proof.Machine

/-- A jump at the end of a meaning adds `pc` and the result output to what was written before it. -/
theorem Frame.then_goto {W : Part → Prop} {s u : State} (h : Frame W s u) (w : Word) :
    Frame (fun p => W p ∨ p.isControl) s (u.goto w) :=
  (h.weaken fun _ => .inl).trans ((Frame.goto u w).weaken fun _ => .inr)

theorem Frame.set_sp (s : State) (n : Fin 17) : Frame (fun p => p = .sp) s { s with sp := n } := by
  refine ⟨fun p hp => ?_, rfl⟩
  cases p with
  | sp => exact absurd rfl hp
  | reg | byte | addrReg | pc | slot | pixel | dt | st | report => rfl

theorem Frame.push (s : State) (k : Fin 16) (w : Word) (n : Fin 17) :
    Frame (fun p => p = .slot k ∨ p = .sp) s { s with stack := s.stack.set k.val w, sp := n } := by
  refine ⟨fun p hp => ?_, rfl⟩
  cases p with
  | slot j =>
    have hkj : k.val ≠ j.val := fun e => hp (.inl (congrArg Part.slot (Fin.ext e.symm)))
    rw [Part.view_slot, Part.view_slot, Vector.getElem_set_ne _ _ hkj]
  | sp => exact absurd (.inr rfl) hp
  | reg | byte | addrReg | pc | pixel | dt | st | report => rfl

theorem exec_ret_of_sp_zero {s : State} (h : s.sp.val = 0) : exec .ret s = .fault .stackUnderflow :=
  (exec_eq_fault_iff ..).2 (if_pos (Fin.ext h))

theorem exec_ret_of_sp_succ {s : State} {k : Fin 16} (h : s.sp.val = k.val + 1) :
    exec .ret s = .next (({ s with sp := k.castSucc } : State).goto s.stack[k.val]) := by
  rcases execRet_cases s with ⟨h0, -⟩ | ⟨-, j, hj, e⟩
  · rw [h0] at h
    cases h
  · obtain rfl : j = k := Fin.ext (by omega)
    exact e

theorem exec_call_of_full {nnn : Addr12} {s : State} (h : s.sp.val = 16) : exec (.call nnn) s = .fault .stackOverflow :=
  (exec_eq_fault_iff ..).2 (if_pos (Fin.ext h))

theorem exec_call_of_sp {s : State} {k : Fin 16} (nnn : Addr12) (h : s.sp.val = k.val) :
    exec (.call nnn) s = .next
      (({ s with stack := s.stack.set k.val (s.pc + 2), sp := k.succ } : State).goto (zextAddr nnn)) := by
  rcases execCall_cases nnn s with ⟨h16, -⟩ | ⟨-, j, hj, e⟩
  · rw [h16] at h
    exact absurd h.symm (Nat.ne_of_lt k.isLt)
  · obtain rfl : j = k := Fin.ext (by omega)
    exact e

/-- Settles O19. -/
theorem retPopsOrUnderflows : Obligations.RetPopsOrUnderflows := fun s =>
  ⟨exec_ret_of_sp_zero, fun k h =>
    ⟨_, exec_ret_of_sp_succ h, rfl, rfl, rfl, (Frame.set_sp s k.castSucc).then_goto _⟩⟩

/-- Settles O21. -/
theorem callPushesNextAddressOrOverflows : Obligations.CallPushesNextAddressOrOverflows := by
  refine fun nnn s => ⟨exec_call_of_full, fun k h => ⟨_, exec_call_of_sp nnn h, ?_, rfl, zextAddr_toNat nnn, rfl, ?_⟩⟩
  · rw [State.goto_stack, Vector.getElem_set_self, pc_add_two_toNat]
  · exact ((Frame.push s k _ _).then_goto _).weaken fun p => or_assoc.1

/-- Settles O22: the sum is exact, and a target above 0xFFE faults as any `pc` above 0xFFE does. -/
theorem jpV0AddsV0 : Obligations.JpV0AddsV0 := fun nnn s =>
  ⟨_, rfl, jpV0Target_toNat (s.getV 0) nnn, jpV0Target_le (s.getV 0) nnn, rfl, Frame.goto s _, stepOp_of_pc_gt⟩

theorem execAll_cons {i : Instr} {rest : List Instr} {s t : State} (h : exec i s = .next t) :
    execAll (i :: rest) s = execAll rest t := by
  rw [execAll, h]

/-- The first call and the last return of a run of calls and as many returns enclose the run of the others. -/
theorem execAll_call_enclosed_ret {nnn : Addr12} {rest : List Addr12} {s u t v : State}
    (hcall : exec (.call nnn) s = .next u)
    (hrun : execAll (rest.map .call ++ List.replicate rest.length .ret) u = .next t) (hret : exec .ret t = .next v) :
    execAll ((nnn :: rest).map .call ++ List.replicate (nnn :: rest).length .ret) s = .next v := by
  have hlist : (nnn :: rest).map Instr.call ++ List.replicate (nnn :: rest).length .ret =
      .call nnn :: ((rest.map .call ++ List.replicate rest.length .ret) ++ [.ret]) := by
    rw [List.length_cons, List.replicate_succ', List.map_cons, List.cons_append, List.append_assoc]
  rw [hlist, execAll_cons hcall, execAll_append hrun, execAll_cons hret, execAll]

/-- Calls and as many returns put `SP` and the live return addresses back; after at least one call `pc` is the address after the
first. The induction is on the calls: the run between the first call and the last return leaves the return address of the first. -/
theorem execAll_calls_returns (targets : List Addr12) (s : State) (h : s.sp.val + targets.length ≤ 16) :
    ∃ t, execAll (targets.map .call ++ List.replicate targets.length .ret) s = .next t ∧ t.sp = s.sp ∧
      (∀ k : Fin 16, k.val < s.sp.val → t.stack[k.val] = s.stack[k.val]) ∧ (targets ≠ [] → t.pc = s.pc + 2) := by
  induction targets generalizing s with
  | nil => exact ⟨s, rfl, rfl, fun _ _ => rfl, fun hn => absurd rfl hn⟩
  | cons nnn rest ih =>
    rw [List.length_cons] at h
    obtain ⟨k, hk⟩ : ∃ k : Fin 16, s.sp.val = k.val := ⟨⟨s.sp.val, by omega⟩, rfl⟩
    obtain ⟨u, hcall, husp, hustack⟩ : ∃ u, exec (.call nnn) s = .next u ∧ u.sp.val = k.val + 1 ∧
        u.stack = s.stack.set k.val (s.pc + 2) := ⟨_, exec_call_of_sp nnn hk, rfl, rfl⟩
    obtain ⟨t, hrun, hsp, hlive, -⟩ := ih u (by omega)
    have hret := exec_ret_of_sp_succ (s := t) (k := k) (by rw [hsp, husp])
    refine ⟨_, execAll_call_enclosed_ret hcall hrun hret, Fin.ext hk.symm, fun j hj => ?_, fun _ => ?_⟩
    · rw [State.goto_stack, hlive j (by omega), hustack, Vector.getElem_set_ne _ _ (by omega)]
    · rw [State.goto_pc, hlive k (by omega), hustack, Vector.getElem_set_self]

/-- Settles O23. -/
theorem callsThenReturnsRestoreStack : Obligations.CallsThenReturnsRestoreStack := by
  intro targets s hne h
  obtain ⟨t, hrun, hsp, hlive, hpc⟩ := execAll_calls_returns targets s h
  exact ⟨t, hrun, hpc hne, hsp, hlive⟩

end Sys2Proof.Machine
end

section
/-! SUPPORT. The skips on registers and keys (R87, R88, R115, R116), skips at the top of memory (R89), where `pc` goes (R16); and O25,
O26, O28, O41. -/

namespace Sys2Proof.Machine

/-- With another low digit than 0 the words of families 5 and 9 match no row (R65). -/
theorem decodeWord_encXYN_eq_none {f n : Nibble} (x y : RegIx) (hf : f = 0x5 ∨ f = 0x9) (hn : n ≠ 0) :
    decodeWord (encXYN f x y n) = none := by
  rw [decodeWord_eq_none_iff, isNoOpWord, family_encXYN, nField_encXYN]
  exact .inr (.inl ⟨hf, hn⟩)

/-- Settles O25: both are skips on a comparison of two registers, and two bytes are equal exactly when they are equal as numbers. -/
theorem registerSkipsCompare : Obligations.RegisterSkipsCompare := by
  intro x y s
  have hbytes : (s.getV x).toNat = (s.getV y).toNat ↔ s.getV x = s.getV y := BitVec.toNat_inj
  refine ⟨decodeWord_encode (.seReg x y), decodeWord_encode (.sneReg x y), fun n hn => ?_, exec_skip_completes rfl ?_,
    exec_skip_completes rfl ?_⟩
  · exact ⟨decodeWord_encXYN_eq_none x y (.inl rfl) hn, decodeWord_encXYN_eq_none x y (.inr rfl) hn⟩
  · simp only [hbytes, decide_eq_true_eq]
  · simp only [hbytes, decide_eq_true_eq, ne_eq, ite_not]

/-- Settles O41: both are skips on the level of one key. -/
theorem keySkipsTestSampledKey : Obligations.KeySkipsTestSampledKey := by
  refine fun x s => ⟨exec_skip_completes rfl rfl, exec_skip_completes rfl ?_⟩
  cases s.env.keys.getLsbD ((s.getV x).toNat % 16) <;> rfl

/-- Settles O26: every skip completes, and each of the three places it leaves `pc` at is above 0xFFE. -/
theorem skipAtTopFaultsOnlyAtNextFetch : Obligations.SkipAtTopFaultsOnlyAtNextFetch := by
  intro i s c hc
  refine ⟨fun hpc htrue => ⟨_, exec_of_skipCond hc, ?_, stepOp_of_pc_gt ?_⟩,
    fun hpc => ⟨_, exec_of_skipCond hc, ?_, stepOp_of_pc_gt ?_⟩⟩
  · rw [State.goto_pc, hpc, htrue]; rfl
  · rw [State.goto_pc, hpc, htrue]; decide
  · rw [State.goto_pc, hpc]; cases c <;> rfl
  · rw [State.goto_pc, hpc]; cases c <;> decide

/-- Where each of the four control transfers goes (R80 to R83). -/
theorem pc_of_transfer (nnn : Addr12) (s t : State) :
    (exec (.jp nnn) s = .next t → t.pc.toNat = nnn.toNat) ∧ (exec (.call nnn) s = .next t → t.pc.toNat = nnn.toNat) ∧
    (exec (.jpV0 nnn) s = .next t → t.pc.toNat = (s.getV 0).toNat + nnn.toNat) ∧
    (exec .ret s = .next t → ∃ k : Fin 16, s.sp.val = k.val + 1 ∧ t.pc = s.stack[k.val]) := by
  refine ⟨?jp, ?call, ?jpV0, ?ret⟩
  case jp =>
    rintro ⟨⟩
    exact zextAddr_toNat nnn
  case call =>
    intro h
    rcases execCall_cases nnn s with ⟨-, e⟩ | ⟨-, k, -, e⟩
    · cases e.symm.trans h
    · cases e.symm.trans h
      exact zextAddr_toNat nnn
  case jpV0 =>
    rintro ⟨⟩
    exact jpV0Target_toNat (s.getV 0) nnn
  case ret =>
    intro h
    rcases execRet_cases s with ⟨-, e⟩ | ⟨-, k, hk, e⟩
    · cases e.symm.trans h
    · cases e.symm.trans h
      exact ⟨k, hk, rfl⟩

/-- With no key down the key wait is the waiting alone (R117). -/
theorem exec_ldVxK_of_no_key {s : State} (x : RegIx) (h : s.env.keys = 0) : exec (.ldVxK x) s = .next s.await := by
  rw [exec, execLdVxK, h, lowestKey_zero]

/-- Settles O28. -/
theorem skipAdvanceIsFour : Obligations.SkipAdvanceIsFour := by
  refine ⟨fun i s hc => exec_skip_completes hc rfl, pc_of_transfer, fun x s t hk h => ?_, fun s t keys rnd f h => ?_⟩
  · cases (exec_ldVxK_of_no_key x hk).symm.trans h
    rfl
  · rw [((hostOp_step_eq_faulted_iff ..).1 h).2]
    rfl

end Sys2Proof.Machine
end

section
/-! SUPPORT. The random byte (R93), the sums, differences and shifts with their flags (R99 to R105), the key wait (R117, R119) and the
writes of `I` (R123, R124); and O32, O34 to O36, O42, O46, O47. -/

namespace Sys2Proof.Machine

/-- Settles O32. -/
theorem rndMasksRandomByte : Obligations.RndMasksRandomByte := by
  refine fun x kk s => ⟨(s.setV x (s.env.rnd &&& kk)).advance, rfl, fun b _ => ?_, pc_add_two_toNat s.pc, rfl,
    Frame.setV_advance s x _⟩
  rw [State.getV_setV_advance_same, BitVec.getLsbD_and, Bool.and_comm]

theorem getV_writeResultThenFlag_vf (s : State) (x : RegIx) (f : Flagged) :
    (s.writeResultThenFlag x f).advance.getV 15 = f.flag := by
  rw [State.getV_advance, getV_writeResultThenFlag, if_pos rfl]

theorem getV_writeResultThenFlag_result {x : RegIx} (s : State) (f : Flagged) (hx : x ≠ 15) :
    (s.writeResultThenFlag x f).advance.getV x = f.result := by
  rw [State.getV_advance, getV_writeResultThenFlag, if_neg hx, if_pos rfl]

theorem getV_writeFlagThenResult_result (s : State) (x : RegIx) (f : Flagged) :
    (s.writeFlagThenResult x f).advance.getV x = f.result := by
  rw [State.getV_advance, getV_writeFlagThenResult, if_pos rfl]

theorem getV_writeFlagThenResult_vf {x : RegIx} (s : State) (f : Flagged) (hx : x ≠ 15) :
    (s.writeFlagThenResult x f).advance.getV 15 = f.flag := by
  rw [State.getV_advance, getV_writeFlagThenResult, if_neg hx.symm, if_pos rfl]

theorem exec_addReg (x y : RegIx) (s : State) :
    exec (.addReg x y) s = .next (s.writeResultThenFlag x (addFlags (s.getV x) (s.getV y))).advance := rfl

theorem exec_sub (x y : RegIx) (s : State) :
    exec (.sub x y) s = .next (s.writeFlagThenResult x (subFlags (s.getV x) (s.getV y))).advance := rfl

theorem exec_subn (x y : RegIx) (s : State) :
    exec (.subn x y) s = .next (s.writeFlagThenResult x (subFlags (s.getV y) (s.getV x))).advance := rfl

theorem exec_shr (x y : RegIx) (s : State) :
    exec (.shr x y) s = .next (s.writeFlagThenResult x (shrFlags (s.getV x))).advance := rfl

theorem exec_shl (x y : RegIx) (s : State) :
    exec (.shl x y) s = .next (s.writeFlagThenResult x (shlFlags (s.getV x))).advance := rfl

/-- Settles O34: the flag is written last, so it stands for every `x`. -/
theorem addRegSumsWithCarry : Obligations.AddRegSumsWithCarry := by
  intro x y s
  refine ⟨_, exec_addReg x y s, fun hx => ?_, ?_, pc_add_two_toNat s.pc, rfl, Frame.writeResultThenFlag_advance s x _⟩
  · rw [getV_writeResultThenFlag_result s _ hx, addFlags_result]
  · rw [getV_writeResultThenFlag_vf, addFlags_flag]

/-- Settles O35: the result is written last, so it stands for every `x`. -/
theorem subtractionsFlagBorrow : Obligations.SubtractionsFlagBorrow := by
  intro x y s
  refine ⟨⟨_, exec_sub x y s, ?_, fun hx => ?_, pc_add_two_toNat s.pc, rfl, Frame.writeFlagThenResult_advance s x _⟩,
    ⟨_, exec_subn x y s, ?_, fun hx => ?_, pc_add_two_toNat s.pc, rfl, Frame.writeFlagThenResult_advance s x _⟩⟩
  · rw [getV_writeFlagThenResult_result, subFlags_result]
  · rw [getV_writeFlagThenResult_vf s _ hx, subFlags_flag]
  · rw [getV_writeFlagThenResult_result, subFlags_result]
  · rw [getV_writeFlagThenResult_vf s _ hx, subFlags_flag]

/-- Settles O36: the result is written last, so it stands for every `x`; the meanings do not name `y`. -/
theorem shiftsReportBitShiftedOut : Obligations.ShiftsReportBitShiftedOut := by
  intro x y s
  refine ⟨⟨_, exec_shr x y s, ?_, fun hx => ?_, pc_add_two_toNat s.pc, rfl, Frame.writeFlagThenResult_advance s x _,
      fun z => exec_shr x z s⟩,
    ⟨_, exec_shl x y s, ?_, fun hx => ?_, pc_add_two_toNat s.pc, rfl, Frame.writeFlagThenResult_advance s x _,
      fun z => exec_shl x z s⟩⟩
  · rw [getV_writeFlagThenResult_result, shrFlags_result]
  · rw [getV_writeFlagThenResult_vf s _ hx, shrFlags_flag]
  · rw [getV_writeFlagThenResult_result, shlFlags_result]
  · rw [getV_writeFlagThenResult_vf s _ hx, shlFlags_flag]

theorem exec_ldVxK_of_key {s : State} {k : Nat} (x : RegIx) (h : lowestKey s.env.keys = some k) :
    exec (.ldVxK x) s = .next (s.setV x (BitVec.ofNat 8 k)).advance := by
  simp [exec, execLdVxK, h]

/-- Settles O42: the key number, below 16, fits a byte. -/
theorem keyWaitLoadsLowestKey : Obligations.KeyWaitLoadsLowestKey := by
  refine fun x s => ⟨fun h => ?_, fun k hk hdown hleast => ?_⟩
  · exact ⟨_, exec_ldVxK_of_no_key x h, rfl, ⟨rfl, rfl, rfl, rfl, rfl, rfl, rfl, rfl, rfl⟩, rfl⟩
  · refine ⟨_, exec_ldVxK_of_key x (lowestKey_some hk hdown hleast), ?_, pc_add_two_toNat s.pc, rfl, Frame.setV_advance s x _⟩
    rw [State.getV_setV_advance_same, BitVec.toNat_ofNat]
    omega

/-- Settles O46. -/
theorem addIWrapsAtSixteenBits : Obligations.AddIWrapsAtSixteenBits := by
  refine fun x s => ⟨(s.setI (s.i + zextByte (s.getV x))).advance, rfl, ?_, pc_add_two_toNat s.pc, rfl, Frame.setI_advance s _⟩
  rw [State.advance_i, State.setI_i, BitVec.toNat_add, zextByte_toNat]

/-- Settles O47: the low digit is below 16, so the glyph address is exact. -/
theorem ldFPointsAtGlyph : Obligations.LdFPointsAtGlyph := by
  intro x s
  obtain ⟨hsum, hend⟩ := glyphAddr_toNat ((s.getV x).toNat % 16) (Nat.mod_lt _ (by decide))
  exact ⟨(s.setI (glyphAddr (lowDigit (s.getV x)))).advance, rfl, hsum, hend, pc_add_two_toNat s.pc, rfl, Frame.setI_advance s _⟩

end Sys2Proof.Machine
end

section
/-! SUPPORT. The sprite draw (R110 to R114): what a completed `Dxyn` leaves, its frame, the empty sprite, a draw repeated; and O37 to O40. -/

namespace Sys2Proof.Machine

/-- The cells under the 1 bits of the sprite that `Dxyn` draws in a state. -/
def State.spriteCells (s : State) (x y : RegIx) (n : Nibble) : Nat → Nat → Prop :=
  spriteBit (memGetList s.mem s.i.toNat n.toNat) (s.getV x).toNat (s.getV y).toNat

/-- The state a draw leaves: its canvas and its flag, and the advance. -/
def State.drawn (s : State) (c : Canvas) : State := ((s.setDisp c.disp).setV vf (flagByte c.hit)).advance

@[simp] theorem State.drawn_disp (s : State) (c : Canvas) : (s.drawn c).disp = c.disp := rfl

theorem State.drawn_getV_vf (s : State) (c : Canvas) : (s.drawn c).getV 15 = flagByte c.hit :=
  State.getV_setV_advance_same _ vf _

theorem Frame.setDisp (s : State) (d : Display) : Frame (fun p => ∃ r c, p = .pixel r c) s (s.setDisp d) := by
  refine ⟨fun p hp => ?_, rfl⟩
  cases p with
  | pixel r c => exact absurd ⟨r, c, rfl⟩ hp
  | reg | byte | addrReg | pc | slot | sp | dt | st | report => rfl

theorem Frame.drawn (s : State) (c : Canvas) :
    Frame (fun p => (∃ r c, p = .pixel r c) ∨ p = .reg 15 ∨ p.isControl) s (s.drawn c) :=
  ((Frame.setDisp s c.disp).weaken fun _ => .inl).trans ((Frame.setV_advance _ vf _).weaken fun _ => .inr)

/-- All that a completed `Dxyn` does: it toggles the cells under its 1 bits. -/
theorem exec_drw_next {x y : RegIx} {n : Nibble} {s t : State} (h : exec (.drw x y n) s = .next t) :
    ∃ c, Drawn (s.spriteCells x y n) { disp := s.disp, hit := false } c ∧ t = s.drawn c := by
  rcases execDrw_cases x y n s with ⟨-, e⟩ | ⟨-, c, hc, -, e⟩
  · cases e.symm.trans h
  · cases e.symm.trans h
    exact ⟨c, hc, rfl⟩

theorem exec_completes_of_faultIn {i : Instr} {s : State} (h : faultIn i s = none) : ∃ t, exec i s = .next t :=
  (instructionsFaultExactlyAsListed i s).2 h

/-- The cells of a draw of `P`, on and off the sprite. -/
theorem Drawn.pixel {P : Nat → Nat → Prop} {c c' : Canvas} (h : Drawn P c c') (r : Fin 32) (k : Fin 64) :
    (P r.val k.val → pixelAt c'.disp r.val k.val = !pixelAt c.disp r.val k.val) ∧
      (¬ P r.val k.val → pixelAt c'.disp r.val k.val = pixelAt c.disp r.val k.val) :=
  h.1 r.val k.val r.isLt k.isLt

/-- The flag of a draw that starts without a collision (R113). -/
theorem Drawn.hit_iff {P : Nat → Nat → Prop} {d : Display} {c : Canvas} (h : Drawn P { disp := d, hit := false } c) :
    c.hit = true ↔ ∃ (r : Fin 32) (k : Fin 64), pixelAt d r.val k.val = true ∧ P r.val k.val := by
  rw [h.2]
  constructor
  · rintro (hf | ⟨r, k, hr, hk, hset, hp⟩)
    · cases hf
    · exact ⟨⟨r, hr⟩, ⟨k, hk⟩, hset, hp⟩
  · rintro ⟨r, k, hset, hp⟩
    exact .inr ⟨r.val, k.val, r.isLt, k.isLt, hset, hp⟩

theorem flagByte_eq_one_iff (c : Bool) : flagByte c = 1 ↔ c = true := by cases c <;> decide

/-- Settles O37. -/
theorem drawXorsSpriteOntoDisplay : Obligations.DrawXorsSpriteOntoDisplay := by
  intro x y n s hrange
  obtain ⟨t, h⟩ : ∃ t, exec (.drw x y n) s = .next t := exec_completes_of_faultIn (if_neg (by omega))
  obtain ⟨c, hc, rfl⟩ := exec_drw_next h
  exact ⟨_, h, hc.pixel, pc_add_two_toNat s.pc, rfl, Frame.drawn s c⟩

/-- Settles O38: VF is the flag of the draw. -/
theorem drawFlagsCollision : Obligations.DrawFlagsCollision := by
  intro x y n s t h
  obtain ⟨c, hc, rfl⟩ := exec_drw_next h
  rw [State.drawn_getV_vf]
  refine ⟨fun hset => (flagByte_eq_one_iff _).2 (hc.hit_iff.2 hset), fun hclear => ?_⟩
  rw [Bool.eq_false_iff.2 fun hhit => hclear (hc.hit_iff.1 hhit)]
  rfl

/-- The empty sprite reads nothing and draws nothing, whatever `I` holds (R114). -/
theorem exec_drw_zero (x y : RegIx) (s : State) :
    exec (.drw x y 0) s = .next (s.drawn { disp := s.disp, hit := false }) := rfl

/-- Settles O39. -/
theorem drawBoundsAndEmptySprite : Obligations.DrawBoundsAndEmptySprite := by
  refine fun x y n s => ⟨fun hn hi => (exec_eq_fault_iff ..).2 (if_pos ⟨hn, hi⟩), ?_⟩
  rintro rfl
  exact ⟨_, exec_drw_zero x y s, rfl, State.drawn_getV_vf ..⟩

/-- A sprite covers some cell exactly when it has a 1 bit, wherever it stands. -/
theorem exists_spriteBit_iff (bytes : List Byte) (cx cy : Nat) :
    (∃ (r : Fin 32) (c : Fin 64), spriteBit bytes cx cy r.val c.val) ↔
      ∃ k b, k < bytes.length ∧ b < 8 ∧ (bytes.getD k 0).getLsbD b = true := by
  constructor
  · rintro ⟨r, c, k, j, hk, -, -, -, hbit⟩
    exact ⟨k, 7 - j, hk, by omega, hbit⟩
  · rintro ⟨k, b, hk, hb, hbit⟩
    have hb7 : 7 - (7 - b) = b := by omega
    exact ⟨⟨(cy + k) % 32, Nat.mod_lt _ (by decide)⟩, ⟨(cx + (7 - b)) % 64, Nat.mod_lt _ (by decide)⟩, k, 7 - b, hk, by omega,
      rfl, rfl, by rwa [hb7]⟩

theorem exists_spriteCells_iff (s : State) (x y : RegIx) (n : Nibble) :
    (∃ (r : Fin 32) (c : Fin 64), s.spriteCells x y n r.val c.val) ↔
      ∃ k b, k < n.toNat ∧ b < 8 ∧ (memGet s.mem (s.i.toNat + k)).getLsbD b = true := by
  unfold State.spriteCells
  rw [exists_spriteBit_iff, memGetList_length]
  refine exists_congr fun k => exists_congr fun b => and_congr_right fun hk => ?_
  rw [memGetList_getD _ _ _ _ hk]

theorem spriteCells_congr {s s' : State} {x y : RegIx} (n : Nibble) (hmem : s'.mem = s.mem) (hi : s'.i = s.i)
    (hx : s'.getV x = s.getV x) (hy : s'.getV y = s.getV y) : s'.spriteCells x y n = s.spriteCells x y n := by
  unfold State.spriteCells
  rw [hmem, hi, hx, hy]

/-- Two draws of the same cells restore the display: each cell is toggled twice or not at all. -/
theorem Drawn.twice_disp {P : Nat → Nat → Prop} {c d e : Canvas} {hit : Bool} (h : Drawn P c d)
    (g : Drawn P { disp := d.disp, hit := hit } e) : e.disp = c.disp := by
  refine display_ext fun r k hr hk => ?_
  obtain ⟨hon, hoff⟩ := h.1 r k hr hk
  obtain ⟨gon, goff⟩ := g.1 r k hr hk
  by_cases hp : P r k
  · rw [gon hp, hon hp, Bool.not_not]
  · rw [goff hp, hoff hp]

/-- The second draw collides where the first one set a cell. -/
theorem Drawn.twice_hit_iff {P : Nat → Nat → Prop} {c d e : Canvas} (h : Drawn P c d)
    (g : Drawn P { disp := d.disp, hit := false } e) :
    e.hit = true ↔ ∃ (r : Fin 32) (k : Fin 64), pixelAt c.disp r.val k.val = false ∧ P r.val k.val := by
  rw [g.hit_iff]
  refine exists_congr fun r => exists_congr fun k => and_congr_left fun hp => ?_
  rw [(h.pixel r k).1 hp, Bool.not_eq_true']

/-- Settles O40. -/
theorem drawTwiceRestoresDisplay : Obligations.DrawTwiceRestoresDisplay := by
  intro x y n s t s' t' h hd hmem hi hx hy h'
  obtain ⟨c, hc, rfl⟩ := exec_drw_next h
  obtain ⟨e, he, rfl⟩ := exec_drw_next h'
  rw [spriteCells_congr n hmem hi hx hy, hd, State.drawn_disp] at he
  have hflag : (s'.drawn e).getV 15 = 1 ↔
      ∃ (r : Fin 32) (k : Fin 64), pixelAt s.disp r.val k.val = false ∧ s.spriteCells x y n r.val k.val := by
    rw [State.drawn_getV_vf, flagByte_eq_one_iff, hc.twice_hit_iff he]
  refine ⟨hc.twice_disp he, hflag, fun hclear => ?_⟩
  rw [hflag, ← exists_spriteCells_iff s x y n]
  simp only [hclear, true_and]

end Sys2Proof.Machine
end

section
/-! SUPPORT. The memory blocks (R125 to R127): the bytes and the frame of a write of a range, the bytes of the next fetch (R54); and
O48 to O51. -/

namespace Sys2Proof.Machine

/-- The bytes that a write of a range leaves in it. -/
theorem memGet_memSetList_add {m : Memory} {a k : Nat} {bytes : List Byte} (h : m.wf = true)
    (hb : a + bytes.length ≤ memSize) (hk : k < bytes.length) : memGet (memSetList m a bytes) (a + k) = bytes.getD k 0 := by
  rw [memGet_memSetList bytes h hb, if_pos (by omega), Nat.add_sub_cancel_left]

/-- A write of a range changes its bytes alone. -/
theorem Frame.setMem_memSetList {s : State} {a : Nat} {bytes : List Byte} (h : s.mem.wf = true)
    (hb : a + bytes.length ≤ memSize) :
    Frame (fun p => p.inBytes a bytes.length) s (s.setMem (memSetList s.mem a bytes)) := by
  refine ⟨fun p hp => ?_, rfl⟩
  cases p with
  | byte k =>
    have hk : ¬ (a ≤ k ∧ k < a + bytes.length) := fun hk =>
      hp ⟨k - a, by omega, congrArg Part.byte (by omega)⟩
    rw [Part.view_byte, Part.view_byte, State.setMem_mem, memGet_memSetList bytes h hb, if_neg hk]
  | reg | addrReg | pc | slot | sp | pixel | dt | st | report => rfl

theorem exec_ldB_of_fits {x : RegIx} {s : State} (h : s.i.toNat + 2 ≤ 0xFFF) :
    exec (.ldB x) s = .next (s.setMem (memSetList s.mem s.i.toNat (decimalDigits (s.getV x)))).advance := by
  rcases execLdB_cases x s with ⟨hn, -⟩ | ⟨-, e⟩
  · omega
  · exact e

theorem exec_storeRegs_of_fits {x : RegIx} {s : State} (h : s.i.toNat + x.val ≤ 0xFFF) :
    exec (.storeRegs x) s = .next (s.setMem (memSetList s.mem s.i.toNat (s.regBlock x))).advance := by
  rcases execStoreRegs_cases x s with ⟨hn, -⟩ | ⟨-, e⟩
  · omega
  · exact e

theorem exec_loadRegs_of_fits {x : RegIx} {s : State} (h : s.i.toNat + x.val ≤ 0xFFF) :
    exec (.loadRegs x) s = .next ({ s with v := loadBlock s.v s.mem s.i.toNat x } : State).advance := by
  rcases execLoadRegs_cases x s with ⟨hn, -⟩ | ⟨-, e⟩
  · omega
  · exact e

/-- A digit, or the quotient a digit is taken from, fits a byte. -/
theorem ofNat_toNat_of_le {n : Nat} {b : Byte} (h : n ≤ b.toNat) : (BitVec.ofNat 8 n).toNat = n := by
  rw [BitVec.toNat_ofNat]
  exact Nat.mod_eq_of_lt (Nat.lt_of_le_of_lt h b.isLt)

/-- Settles O48. -/
theorem ldBStoresDecimalDigits : Obligations.LdBStoresDecimalDigits := by
  intro x s hwf
  refine ⟨fun h => (exec_eq_fault_iff ..).2 (if_pos h), fun h => ?_⟩
  have hfit := digits_fit (s.getV x) h
  have hbyte : ∀ k, k < 3 → memGet (memSetList s.mem s.i.toNat (decimalDigits (s.getV x))) (s.i.toNat + k) =
      (decimalDigits (s.getV x)).getD k 0 := fun k hk => memGet_memSetList_add hwf hfit hk
  refine ⟨_, exec_ldB_of_fits h, ?hundreds, ?tens, ?ones, pc_add_two_toNat s.pc, rfl, (Frame.setMem_memSetList hwf hfit).advance⟩
  case hundreds => exact (congrArg _ (hbyte 0 (by decide))).trans (ofNat_toNat_of_le (b := s.getV x) (by omega))
  case tens => exact (congrArg _ (hbyte 1 (by decide))).trans (ofNat_toNat_of_le (b := s.getV x) (by omega))
  case ones => exact (congrArg _ (hbyte 2 (by decide))).trans (ofNat_toNat_of_le (b := s.getV x) (by omega))

/-- Settles O49. -/
theorem storeRegsWritesBlock : Obligations.StoreRegsWritesBlock := by
  intro x s hwf
  refine ⟨fun h => (exec_eq_fault_iff ..).2 (if_pos h), fun h => ?_⟩
  have hframe := Frame.setMem_memSetList hwf (regBlock_fit h)
  rw [regBlock_length] at hframe
  refine ⟨_, exec_storeRegs_of_fits h, fun k hk => ?_, pc_add_two_toNat s.pc, rfl, hframe.advance⟩
  rw [State.advance_mem, State.setMem_mem, memGet_memSetList_add hwf (regBlock_fit h), regBlock_getD s x k hk]
  rw [regBlock_length]
  exact Nat.lt_succ_of_le hk

/-- New contents of the general registers that agree with the old ones outside `W` change the registers of `W` alone. -/
theorem Frame.regs {s : State} {v : Vector Byte 16} {W : RegIx → Prop} (h : ∀ k, ¬ W k → v[k.val] = s.v[k.val]) :
    Frame (fun p => ∃ k, W k ∧ p = .reg k) s { s with v := v } := by
  refine ⟨fun p hp => ?_, rfl⟩
  cases p with
  | reg k => exact congrArg BitVec.toNat (h k fun hk => hp ⟨k, hk, rfl⟩)
  | byte | addrReg | pc | slot | sp | pixel | dt | st | report => rfl

/-- Settles O50. -/
theorem loadRegsReadsBlock : Obligations.LoadRegsReadsBlock := by
  refine fun x s => ⟨fun h => (exec_eq_fault_iff ..).2 (if_pos h), fun h => ?_⟩
  have hv := loadBlock_get s.v s.mem s.i.toNat x
  refine ⟨_, exec_loadRegs_of_fits h, fun k hk => ?_, pc_add_two_toNat s.pc, rfl,
    (Frame.regs fun k hk => (hv k).trans (if_neg hk)).advance⟩
  rw [State.getV_advance, State.getV, hv, if_pos hk]

/-- Of all effects only the two stores have other memory. -/
theorem Effect.mem_ne {s t : State} {i : Option Instr} (h : Effect s i t) (hne : t.mem ≠ s.mem) :
    ∃ x, i = some (.ldB x) ∨ i = some (.storeRegs x) := by
  cases h with
  | digits x => exact ⟨x, .inl rfl⟩
  | block x => exact ⟨x, .inr rfl⟩
  | skip | jump | ret | call | regs | addrReg | delayTimer | soundTimer | draw | await => exact absurd rfl hne

/-- The memory that `Fx33` leaves, read at any address (R125). -/
theorem memGet_digits {x : RegIx} {s : State} (hwf : s.mem.wf = true) (h : s.i.toNat + 2 ≤ 0xFFF) (a : Nat) :
    memGet (memSetList s.mem s.i.toNat (decimalDigits (s.getV x))) a = byteAfter (.ldB x) s a := by
  rw [memGet_memSetList _ hwf (digits_fit _ h), decimalDigits_length, byteAfter]
  by_cases hin : s.i.toNat ≤ a ∧ a < s.i.toNat + 3
  · obtain ⟨k, rfl⟩ := Nat.exists_eq_add_of_le hin.1
    have hk : k = 0 ∨ k = 1 ∨ k = 2 := by omega
    rw [if_pos hin, Nat.add_sub_cancel_left]
    rcases hk with rfl | rfl | rfl <;> simp [decimalDigits]
  · rw [if_neg hin, if_neg (by omega), if_neg (by omega), if_neg (by omega)]

/-- The memory that `Fx55` leaves, read at any address (R126). -/
theorem memGet_regBlock {x : RegIx} {s : State} (hwf : s.mem.wf = true) (h : s.i.toNat + x.val ≤ 0xFFF) (a : Nat) :
    memGet (memSetList s.mem s.i.toNat (s.regBlock x)) a = byteAfter (.storeRegs x) s a := by
  rw [memGet_memSetList _ hwf (regBlock_fit h), regBlock_length, byteAfter]
  by_cases hin : s.i.toNat ≤ a ∧ a ≤ s.i.toNat + x.val
  · have hk : a - s.i.toNat < x.val + 1 := by omega
    rw [if_pos (by omega), if_pos hin, State.regBlock, List.getD_eq_getElem?_getD, List.getElem?_take_of_lt hk,
      List.getD_eq_getElem?_getD]
  · rw [if_neg (by omega), if_neg hin]

/-- The memory after any instruction that completes, read at any address. -/
theorem memGet_of_exec_next {i : Instr} {s t : State} (hwf : s.mem.wf = true) (h : exec i s = .next t) (a : Nat) :
    memGet t.mem a = byteAfter i s a := by
  cases i with
  | ldB x =>
    rcases execLdB_cases x s with ⟨-, e⟩ | ⟨hb, e⟩
    · cases e.symm.trans h
    · cases e.symm.trans h
      exact memGet_digits hwf hb a
  | storeRegs x =>
    rcases execStoreRegs_cases x s with ⟨-, e⟩ | ⟨hb, e⟩
    · cases e.symm.trans h
    · cases e.symm.trans h
      exact memGet_regBlock hwf hb a
  | ret | jp | call | seImm | sneImm | seReg | ldImm | addImm | ldReg | orReg | andReg | xorReg | addReg | sub | shr | subn | shl
    | sneReg | ldI | jpV0 | rnd | drw | skp | sknp | ldVxDt | ldVxK | ldDtVx | ldStVx | addI | ldF | loadRegs =>
    have hm : t.mem = s.mem := Decidable.byContradiction fun hne => by
      obtain ⟨x, hi | hi⟩ := (exec_effect h).mem_ne hne
      · cases hi
      · cases hi
    rw [hm]
    rfl

/-- Settles O51: the fetch reads the memory that the instruction left. -/
theorem storedBytesAreFetchedNext : Obligations.StoredBytesAreFetchedNext := by
  intro i s t hwf h hpc
  rcases fetchWord_cases t with ⟨-, e⟩ | ⟨hgt, -⟩
  · rw [e, wordAt, memGet_of_exec_next hwf h, memGet_of_exec_next hwf h]
  · omega

end Sys2Proof.Machine
end

section
/-! SUPPORT. The host's operations (R23 to R27, R30): the state at reset, Reset, Load, Tick, the readouts and what they leave, the
timers; and O8, O15, O16, O18, O55 to O58. -/

namespace Sys2Proof.Machine

/-- Settles O15. -/
theorem resetLeavesEveryCellZeroButPc : Obligations.ResetLeavesEveryCellZeroButPc := by
  refine ⟨memGet_nil, fun x => ?_, rfl, rfl, fun k => ?_, rfl, fun r c => ?_, rfl, rfl⟩
  · exact Vector.getElem_replicate x.isLt
  · exact Vector.getElem_replicate k.isLt
  · rw [pixelAt_of_lt _ r.isLt c.isLt]
    simp [State.reset]

/-- Settles O16: memory lists nothing, and no return address is live. -/
theorem invariantHoldsAtReset : Obligations.InvariantHoldsAtReset :=
  ⟨rfl, by decide, fun k hk => absurd hk (Nat.not_lt_zero k.val)⟩

/-- Settles O18. -/
theorem hostResetIgnoresState : Obligations.HostResetIgnoresState := fun s =>
  ⟨hostReset s, rfl, ⟨rfl, rfl, rfl, rfl, rfl, rfl, rfl, rfl, rfl⟩, rfl⟩

/-- Settles O8: the Ticks one by one are the Ticks at once. -/
theorem betweenStepsIsTicksThenInputs : Obligations.BetweenStepsIsTicksThenInputs := by
  intro s
  rw [tickTimes_eq_iterate]
  exact ⟨⟨rfl, rfl, rfl, rfl, rfl, rfl, rfl, rfl, rfl⟩, rfl, rfl, rfl⟩

theorem Frame.tick (s : State) : Frame (fun p => p = .dt ∨ p = .st) s (tick s) := by
  refine ⟨fun p hp => ?_, rfl⟩
  cases p with
  | dt => exact absurd (.inl rfl) hp
  | st => exact absurd (.inr rfl) hp
  | reg | byte | addrReg | pc | slot | sp | pixel | report => rfl

/-- Settles O55. -/
theorem tickDecrementsBothTimers : Obligations.TickDecrementsBothTimers := fun s =>
  ⟨tick s, rfl, tickTimer_toNat s.dt, tickTimer_toNat s.st, Frame.tick s⟩

theorem hostOp_load_of_closed {s : State} (a : Nat) (bytes : List Byte) (h : s.env.loadOpen = false) :
    hostOp (.load a bytes) s = (.loadTooLate, s) := by
  simp [hostOp, h]

theorem hostOp_load_of_open {s : State} (a : Nat) (bytes : List Byte) (h : s.env.loadOpen = true) :
    hostOp (.load a bytes) s =
      if a + bytes.length ≤ memSize then (.done, loadBytes a bytes s) else (.loadRefused, s) := by
  simp [hostOp, h, loadFits]

/-- Settles O57: a performed Load is a write of a range. -/
theorem loadWritesWholeOrNothing : Obligations.LoadWritesWholeOrNothing := by
  intro a bytes s hwf
  refine ⟨hostOp_load_of_closed a bytes, fun hopen hbig => ?_, fun hopen hfit => ?_⟩
  · rw [hostOp_load_of_open a bytes hopen, if_neg (Nat.not_le.2 hbig)]
  · exact ⟨loadBytes a bytes s, (hostOp_load_of_open a bytes hopen).trans (if_pos hfit),
      fun k hk => memGet_memSetList_add hwf hfit hk, memSetList_wf bytes hwf hfit, Frame.setMem_memSetList hwf hfit⟩

/-- Settles O58. -/
theorem readoutsChangeNothing : Obligations.ReadoutsChangeNothing := fun s =>
  ⟨rfl, s.readout, rfl, rfl, rfl, rfl, rfl, rfl, rfl, rfl⟩

/-- A Step of the host leaves the cells it began with, or has an effect of the instruction at `pc`. -/
theorem hostOp_step_effect (keys : BitVec 16) (rnd : Byte) (s : State) :
    (hostOp (.step keys rnd) s).2 = (s.withInputs keys rnd).closeLoad ∨
      Effect (s.withInputs keys rnd).closeLoad s.current (hostOp (.step keys rnd) s).2 := by
  rcases stepOp_answers (s.withInputs keys rnd).closeLoad with ⟨f, -, e⟩ | ⟨-, -, t, e, he⟩
  · exact .inl (by simp only [hostOp, e])
  · have hc : ((s.withInputs keys rnd).closeLoad).current = s.current := rfl
    rw [hc] at he
    exact .inr (by simpa only [hostOp, e] using he)

/-- A Load leaves both timers, performed or not. -/
theorem hostOp_load_timers (a : Nat) (bytes : List Byte) (s : State) :
    (hostOp (.load a bytes) s).2.dt = s.dt ∧ (hostOp (.load a bytes) s).2.st = s.st := by
  cases hopen : s.env.loadOpen with
  | false =>
    rw [hostOp_load_of_closed a bytes hopen]
    exact ⟨rfl, rfl⟩
  | true =>
    rw [hostOp_load_of_open a bytes hopen]
    split
    · exact ⟨rfl, rfl⟩
    · exact ⟨rfl, rfl⟩

theorem tickTimer_le (b : Byte) : (tickTimer b).toNat ≤ b.toNat := by
  rw [tickTimer_toNat]
  exact Nat.sub_le _ _

theorem hostOp_step_dt {keys : BitVec 16} {rnd : Byte} {s : State} (h : ∀ x, s.current ≠ some (.ldDtVx x)) :
    (hostOp (.step keys rnd) s).2.dt = s.dt := by
  rcases hostOp_step_effect keys rnd s with e | he
  · rw [e]
    rfl
  · refine Decidable.byContradiction fun hne => ?_
    obtain ⟨x, hx⟩ := he.dt_ne hne
    exact h x hx

theorem hostOp_step_st {keys : BitVec 16} {rnd : Byte} {s : State} (h : ∀ x, s.current ≠ some (.ldStVx x)) :
    (hostOp (.step keys rnd) s).2.st = s.st := by
  rcases hostOp_step_effect keys rnd s with e | he
  · rw [e]
    rfl
  · refine Decidable.byContradiction fun hne => ?_
    obtain ⟨x, hx⟩ := he.st_ne hne
    exact h x hx

/-- Settles O56: a Reset clears both timers, a Tick lowers them, a Load, a readout and any other Step leave them. -/
theorem timersRiseOnlyWhenLoaded : Obligations.TimersRiseOnlyWhenLoaded := by
  intro op s
  cases op with
  | reset => exact ⟨fun _ => Nat.zero_le _, fun _ => Nat.zero_le _⟩
  | load a bytes =>
    obtain ⟨hdt, hst⟩ := hostOp_load_timers a bytes s
    rw [hdt, hst]
    exact ⟨fun _ => Nat.le_refl _, fun _ => Nat.le_refl _⟩
  | step keys rnd =>
    exact ⟨fun h => Nat.le_of_eq (congrArg BitVec.toNat (hostOp_step_dt (h keys rnd rfl))),
      fun h => Nat.le_of_eq (congrArg BitVec.toNat (hostOp_step_st (h keys rnd rfl)))⟩
  | tick => exact ⟨fun _ => tickTimer_le s.dt, fun _ => tickTimer_le s.st⟩
  | readDisplay | readState => exact ⟨fun _ => Nat.le_refl _, fun _ => Nat.le_refl _⟩

end Sys2Proof.Machine
end

section
/-! SUPPORT. The fetch and the dispatch of a Step (R42, R46, R64), that the Load window does not matter to it, and the model's step as
the host's operations (log entry 3); O6, O7, O9, O59. -/

namespace Sys2Proof.Machine

/-- Settles O6. -/
theorem stepRunsDecodedInstruction : Obligations.StepRunsDecodedInstruction := by
  intro s i hpc hd
  have hs : stepOp s = exec i s := by
    rcases stepOp_cases s with ⟨hgt, -⟩ | ⟨-, j, hj, -, e⟩ | ⟨-, hn, -⟩
    · exact absurd hgt (Nat.not_lt.2 hpc)
    · cases hd.symm.trans hj
      exact e
    · cases hd.symm.trans hn
  exact ⟨hs, hs ▸ step_eq s⟩

/-- Settles O7. -/
theorem stepRunsNoOpForUnlistedWord : Obligations.StepRunsNoOpForUnlistedWord := by
  intro s hpc hd
  have hs : stepOp s = execNop s := by
    rcases stepOp_cases s with ⟨hgt, -⟩ | ⟨-, j, hj, -⟩ | ⟨-, -, -, e⟩
    · exact absurd hgt (Nat.not_lt.2 hpc)
    · cases hd.symm.trans hj
    · exact e
  exact ⟨hs, s.advance, rfl, by rw [step_eq, hs, execNop, done]⟩

/-- Settles O9. -/
theorem fetchIsBigEndianAndBounded : Obligations.FetchIsBigEndianAndBounded := by
  intro s
  rcases fetchWord_cases s with ⟨hle, e⟩ | ⟨hgt, e⟩
  · exact ⟨fun hgt => absurd hgt (Nat.not_lt.2 hle), fun _ => ⟨_, e, wordAt_toNat _ _, by rw [stepOp, e]⟩⟩
  · have hs := stepOp_of_pc_gt hgt
    exact ⟨fun _ => ⟨e, hs, by rw [step_eq, hs]⟩, fun hle => absurd hgt (Nat.not_lt.2 hle)⟩

/-! ### The Load window does not matter to a Step -/

/-- An instruction that completes does so whether or not a Load is still allowed, with the same effect. -/
theorem exec_closeLoad {i : Instr} {s t : State} (h : exec i s = .next t) : exec i s.closeLoad = .next t.closeLoad := by
  cases i with
  | ret =>
    rcases execRet_cases s with ⟨-, e⟩ | ⟨-, k, hk, e⟩
    · cases e.symm.trans h
    · cases e.symm.trans h
      exact exec_ret_of_sp_succ (s := s.closeLoad) hk
  | call nnn =>
    rcases execCall_cases nnn s with ⟨-, e⟩ | ⟨-, k, hk, e⟩
    · cases e.symm.trans h
    · cases e.symm.trans h
      exact exec_call_of_sp (s := s.closeLoad) nnn hk
  | ldVxK x =>
    rcases execLdVxK_cases x s with ⟨hk, e⟩ | ⟨k, hk, e⟩
    · cases e.symm.trans h
      exact exec_ldVxK_of_no_key (s := s.closeLoad) x hk
    · cases e.symm.trans h
      exact exec_ldVxK_of_key (s := s.closeLoad) x hk
  | ldB x =>
    rcases execLdB_cases x s with ⟨-, e⟩ | ⟨hb, e⟩
    · cases e.symm.trans h
    · cases e.symm.trans h
      exact exec_ldB_of_fits (s := s.closeLoad) hb
  | storeRegs x =>
    rcases execStoreRegs_cases x s with ⟨-, e⟩ | ⟨hb, e⟩
    · cases e.symm.trans h
    · cases e.symm.trans h
      exact exec_storeRegs_of_fits (s := s.closeLoad) hb
  | loadRegs x =>
    rcases execLoadRegs_cases x s with ⟨-, e⟩ | ⟨hb, e⟩
    · cases e.symm.trans h
    · cases e.symm.trans h
      exact exec_loadRegs_of_fits (s := s.closeLoad) hb
  | drw x y n =>
    simp only [exec, execDrw, State.closeLoad_mem, State.closeLoad_i] at h ⊢
    cases hread : memRead s.mem s.i.toNat n.toNat with
    | error f => rw [hread] at h; cases h
    | ok bytes => rw [hread] at h; cases h; rfl
  | seImm | sneImm | seReg | sneReg | skp | sknp =>
    cases (exec_of_skipCond (s := s) rfl).symm.trans h
    exact exec_of_skipCond (s := s.closeLoad) rfl
  | jp | ldImm | addImm | ldReg | orReg | andReg | xorReg | addReg | sub | shr | subn | shl | ldI | jpV0 | rnd | ldVxDt | ldDtVx
    | ldStVx | addI | ldF =>
    cases h
    rfl

theorem stepOp_closeLoad {s t : State} (h : stepOp s = .next t) : stepOp s.closeLoad = .next t.closeLoad := by
  have hfetch : fetchWord s.closeLoad = fetchWord s := rfl
  unfold stepOp at h ⊢
  rw [hfetch]
  cases hw : fetchWord s with
  | error f => rw [hw] at h; cases h
  | ok w =>
    rw [hw] at h
    dsimp only at h ⊢
    rw [runWord_eq] at h ⊢
    cases hd : decodeWord w with
    | none => rw [hd] at h; cases h; rfl
    | some i => rw [hd] at h; exact exec_closeLoad h

/-- A Step with the inputs that stand in the state (R21, R22) only closes the Load window before it. -/
theorem State.withInputs_self (s : State) : s.withInputs s.env.keys s.env.rnd = s := rfl

theorem hostOp_step_stepped {s u : State} (h : stepOp s = .next u) :
    hostOp (.step s.env.keys s.env.rnd) s = (.stepped u.report, u.closeLoad) := by
  simp only [hostOp, State.withInputs_self, stepOp_closeLoad h, State.closeLoad_report]

/-- Settles O59: the number of Ticks is that of the host's next move. -/
theorem stepRefinesHostOperations : Obligations.StepRefinesHostOperations := by
  refine fun s => ⟨fun t h => ?_, fun f h => ?_⟩
  · obtain ⟨u, hu, rfl⟩ := step_next h
    refine ⟨u.closeLoad, u.env.nextMove.ticks, hostOp_step_stepped hu, ?_⟩
    rw [tickTimes_eq_iterate]
    exact ⟨rfl, rfl, rfl, rfl, rfl, rfl, rfl, rfl, rfl⟩
  · have hf := (stepOp_eq_fault_iff s f).1 (step_fault h)
    exact ⟨_, hostOp_step_faulted hf _ _, rfl, rfl, rfl, rfl, rfl, rfl, rfl, rfl, rfl⟩

end Sys2Proof.Machine
end
